-- ==== Sys2Proof/Word.lean ====
section
/-!
DEFINITION. The word and byte types of the MN1610 (10_state.md R10, 20_memory.md R40).
-/

namespace Sys2Proof

/-- A word: the width of every register, of every memory location, of every address and of every
I/O transfer (R10, R40, R46). -/
abbrev Word := BitVec 16

/-- A byte: a half of a register (R42), a displacement (R65), an 8-bit immediate (R63). -/
abbrev Byte := BitVec 8

end Sys2Proof
end

