-- ==== Sys2Proof/Syntax.lean ====
section
/-!
DEFINITION. The symbolic instructions of the MN1610: one constructor for each row of
spec/opcode_table.json (30_encoding.md sections 1 to 4). The assembler macro CLR (R97, R153) and the
NOP idiom (R98) are words of EOR and MV and have no constructor.
-/

namespace Sys2Proof

/-- The registers an instruction may name (R13). `r3` is also X0 and `r4` is also X1 (R11). -/
inductive Reg where
  | r0
  | r1
  | r2
  | r3
  | r4
  | sp
  | str
deriving DecidableEq, Repr

/-- The eight addressing modes of EA, in the order of their numbers 0 to 7 (R66 to R73). -/
inductive EaMode where
  /-- mode 0, `D` (R66) -/
  | zeroPage
  /-- mode 1, `(IC)+d` (R67) -/
  | relative
  /-- mode 2, `[D]` (R68) -/
  | zeroPageIndirect
  /-- mode 3, `[(IC)+d]` (R69) -/
  | relativeIndirect
  /-- mode 4, `(X0)+D` (R70) -/
  | indexX0
  /-- mode 5, `(X1)+D` (R71) -/
  | indexX1
  /-- mode 6, `(X0)+[D]` (R72) -/
  | indirectX0
  /-- mode 7, `(X1)+[D]` (R73) -/
  | indirectX1
deriving DecidableEq, Repr

/-- The operand EA: a mode and an 8-bit displacement (R65). -/
structure Ea where
  mode : EaMode
  disp : Byte
deriving DecidableEq, Repr

/-- The operand EM: what SL and SR do to E before the shift, numbers 0 to 3 (R75, R78). -/
inductive Em where
  | keep
  | re
  | se
  | ce
deriving DecidableEq, Repr

/-- The operand C: the skip condition, in the order of its numbers 0 to 15 (R80 to R95). -/
inductive Cond where
  | never
  | skp
  | m
  | pz
  | z
  | nz
  | mz
  | p
  | ez
  | enz
  | oz
  | onz
  | lmz
  | lp
  | lpz
  | lm
deriving DecidableEq, Repr

/-- The 33 instructions (R60), in the order of the section files. -/
inductive Instr where
  -- 40_memory_ops.md
  | l (r : Reg) (ea : Ea)
  | st (r : Reg) (ea : Ea)
  | ims (ea : Ea)
  | dms (ea : Ea)
  -- 41_branch.md
  | b (ea : Ea)
  | bal (ea : Ea)
  | ret
  -- 42_arithmetic.md
  | a (rd rs : Reg) (c : Cond)
  | s (rd rs : Reg) (c : Cond)
  -- 43_logical.md
  | and (rd rs : Reg) (c : Cond)
  | or (rd rs : Reg) (c : Cond)
  | eor (rd rs : Reg) (c : Cond)
  -- 44_compare.md
  | c (rd rs : Reg) (c : Cond)
  | cb (rd rs : Reg) (c : Cond)
  -- 45_move_swap.md
  | mv (rd rs : Reg) (c : Cond)
  | mvb (rd rs : Reg) (c : Cond)
  | bswp (rd rs : Reg) (c : Cond)
  | dswp (rd rs : Reg) (c : Cond)
  -- 46_decimal.md
  | lad (rd rs : Reg) (c : Cond)
  -- 47_shift.md
  | sl (rn : Reg) (em : Em) (c : Cond)
  | sr (rn : Reg) (em : Em) (c : Cond)
  -- 48_bit_immediate.md
  | sbit (rn : Reg) (i4 : BitVec 4) (c : Cond)
  | rbit (rn : Reg) (i4 : BitVec 4) (c : Cond)
  | tbit (rn : Reg) (i4 : BitVec 4) (c : Cond)
  | ai (rn : Reg) (i4 : BitVec 4) (c : Cond)
  | si (rn : Reg) (i4 : BitVec 4) (c : Cond)
  | mvi (rn : Reg) (i8 : Byte)
  -- 49_io_misc.md
  | rd (rn : Reg) (i8 : Byte)
  | wt (rn : Reg) (i8 : Byte)
  | lpsw (i2 : BitVec 2)
  | h
  | push (rn : Reg)
  | pop (rn : Reg)
deriving DecidableEq, Repr

end Sys2Proof
end

