-- ==== Sys2Proof/WellFormed.lean ====
section
/-!
DEFINITION. Which symbolic instructions the instruction set has. The operand types already bound
every immediate, displacement, mode and condition (R63, R65, R75, R79); what is left to check is
R13: the register of L and ST is one of R0 to R4 and SP, never STR.
-/

namespace Sys2Proof

/-- The register operand of L and ST (R13, R120, R121). -/
def Reg.memoryOperand : Reg → Bool
  | .str => false
  | .r0 | .r1 | .r2 | .r3 | .r4 | .sp => true

/-- R13: which register each instruction may name. -/
def Instr.wellFormed : Instr → Bool
  | .l r _ => r.memoryOperand
  | .st r _ => r.memoryOperand
  | .ims _ | .dms _ | .b _ | .bal _ | .ret => true
  | .a _ _ _ | .s _ _ _ | .and _ _ _ | .or _ _ _ | .eor _ _ _ => true
  | .c _ _ _ | .cb _ _ _ | .mv _ _ _ | .mvb _ _ _ | .bswp _ _ _ | .dswp _ _ _ | .lad _ _ _ => true
  | .sl _ _ _ | .sr _ _ _ => true
  | .sbit _ _ _ | .rbit _ _ _ | .tbit _ _ _ | .ai _ _ _ | .si _ _ _ => true
  | .mvi _ _ | .rd _ _ | .wt _ _ | .lpsw _ | .h | .push _ | .pop _ => true

end Sys2Proof
end

