-- ==== Sys2Proof/Decode.lean ====
section
/-!
DEFINITION. The decoder and the encoder of CFG0 (30_encoding.md section 6, R100 to R109): general
knowledge of the spec's writer, not of the source (R100, log entry 4). Every instruction is one
16-bit word (R61).
-/

namespace Sys2Proof

/-! ### Field codes -/

/-- R14. -/
def Reg.code : Reg → BitVec 3
  | .r0 => 0
  | .r1 => 1
  | .r2 => 2
  | .r3 => 3
  | .r4 => 4
  | .sp => 5
  | .str => 6

/-- R14: code 7 names no register. -/
def Reg.ofCode (k : BitVec 3) : Option Reg :=
  match k.toNat with
  | 0 => some .r0
  | 1 => some .r1
  | 2 => some .r2
  | 3 => some .r3
  | 4 => some .r4
  | 5 => some .sp
  | 6 => some .str
  | _ => none

/-- The mode numbers of R66 to R73. -/
def EaMode.code : EaMode → BitVec 3
  | .zeroPage => 0
  | .relative => 1
  | .zeroPageIndirect => 2
  | .relativeIndirect => 3
  | .indexX0 => 4
  | .indexX1 => 5
  | .indirectX0 => 6
  | .indirectX1 => 7

/-- The mode numbers of R66 to R73; all eight codes are modes. -/
def EaMode.ofCode (k : BitVec 3) : EaMode :=
  match k.toNat with
  | 0 => .zeroPage
  | 1 => .relative
  | 2 => .zeroPageIndirect
  | 3 => .relativeIndirect
  | 4 => .indexX0
  | 5 => .indexX1
  | 6 => .indirectX0
  | _ => .indirectX1

/-- The EM numbers of R75 and R78. -/
def Em.code : Em → BitVec 2
  | .keep => 0
  | .re => 1
  | .se => 2
  | .ce => 3

/-- The EM numbers of R75 and R78; all four codes are modes. -/
def Em.ofCode (k : BitVec 2) : Em :=
  match k.toNat with
  | 0 => .keep
  | 1 => .re
  | 2 => .se
  | _ => .ce

/-- The condition numbers of R80 to R95. -/
def Cond.code : Cond → BitVec 4
  | .never => 0
  | .skp => 1
  | .m => 2
  | .pz => 3
  | .z => 4
  | .nz => 5
  | .mz => 6
  | .p => 7
  | .ez => 8
  | .enz => 9
  | .oz => 10
  | .onz => 11
  | .lmz => 12
  | .lp => 13
  | .lpz => 14
  | .lm => 15

/-- The condition numbers of R80 to R95; all sixteen codes are conditions. -/
def Cond.ofCode (k : BitVec 4) : Cond :=
  match k.toNat with
  | 0 => .never
  | 1 => .skp
  | 2 => .m
  | 3 => .pz
  | 4 => .z
  | 5 => .nz
  | 6 => .mz
  | 7 => .p
  | 8 => .ez
  | 9 => .enz
  | 10 => .oz
  | 11 => .onz
  | 12 => .lmz
  | 13 => .lp
  | 14 => .lpz
  | _ => .lm

/-! ### Decoding -/

/-- Why a word is undefined: the three classes (a), (b), (c) of R108. -/
inductive Undefined where
  /-- (a): bits 15..11 are 00000 -/
  | opcodeZero
  /-- (b): a register field holds 7 -/
  | registerSeven
  /-- (c): a word of 0x2000..0x27FF with bit 3 = 0 that is none of H, PUSH, POP, RET, LPSW -/
  | strayBits
deriving DecidableEq, Repr

/-- What the decoder answers: an instruction, or the class of undefined word by name. -/
inductive Decoded where
  | instr (i : Instr)
  | undefined (why : Undefined)
deriving DecidableEq, Repr

/-- A word whose register field holds 7 is undefined (R108 (b)). -/
def withRegister (k : BitVec 3) (f : Reg → Decoded) : Decoded :=
  match Reg.ofCode k with
  | some r => f r
  | none => .undefined .registerSeven

/-- Format M (R101): bit 15 = 1. Register code 6 selects IMS or DMS, code 7 B or BAL. -/
def decodeM (w : Word) : Decoded :=
  let ea : Ea := { mode := EaMode.ofCode (w.extractLsb' 11 3), disp := w.extractLsb' 0 8 }
  let op := w.getLsbD 14
  match Reg.ofCode (w.extractLsb' 8 3) with
  | none => .instr (if op then .b ea else .bal ea)
  | some .str => .instr (if op then .ims ea else .dms ea)
  | some r => .instr (if op then .l r ea else .st r ea)

/-- Format RR (R102): bit 3 chooses between the two instructions of an opcode. -/
def decodeRR (w : Word) (sub0 sub1 : Reg → Reg → Cond → Instr) : Decoded :=
  withRegister (w.extractLsb' 8 3) fun rd =>
    withRegister (w.extractLsb' 0 3) fun rs =>
      .instr ((if w.getLsbD 3 then sub1 else sub0) rd rs (Cond.ofCode (w.extractLsb' 4 4)))

/-- Format SH (R103): bit 2 chooses SL or SR. -/
def decodeSH (w : Word) : Decoded :=
  withRegister (w.extractLsb' 8 3) fun rn =>
    .instr ((if w.getLsbD 2 then Instr.sl else Instr.sr) rn (Em.ofCode (w.extractLsb' 0 2))
      (Cond.ofCode (w.extractLsb' 4 4)))

/-- Format BI (R104). -/
def decodeBI (w : Word) (f : Reg → BitVec 4 → Cond → Instr) : Decoded :=
  withRegister (w.extractLsb' 8 3) fun rn =>
    .instr (f rn (w.extractLsb' 0 4) (Cond.ofCode (w.extractLsb' 4 4)))

/-- Format I8 (R105). -/
def decodeI8 (w : Word) (f : Reg → Byte → Instr) : Decoded :=
  withRegister (w.extractLsb' 8 3) fun rn => .instr (f rn (w.extractLsb' 0 8))

/-- Format Z (R106, R109): bits 7..4 are 0000, and bits 10..8 are 000 where no register is named. -/
def decodeZ (w : Word) : Decoded :=
  withRegister (w.extractLsb' 8 3) fun rn =>
    if w.extractLsb' 4 4 ≠ 0 then .undefined .strayBits
    else
      match (w.extractLsb' 0 3).toNat with
      | 0 => if rn = .r0 then .instr .h else .undefined .strayBits
      | 1 => .instr (.push rn)
      | 2 => .instr (.pop rn)
      | 3 => if rn = .r0 then .instr .ret else .undefined .strayBits
      | _ => if rn = .r0 then .instr (.lpsw (w.extractLsb' 0 2)) else .undefined .strayBits

/-- The opcode map of R107 by bits 15..11, total on all words (R109). -/
def decode (w : Word) : Decoded :=
  match (w.extractLsb' 11 5).toNat with
  | 0 => .undefined .opcodeZero
  | 1 => decodeI8 w .mvi
  | 2 => decodeI8 w .wt
  | 3 => decodeI8 w .rd
  | 4 => if w.getLsbD 3 then decodeSH w else decodeZ w
  | 5 => decodeBI w .tbit
  | 6 => decodeBI w .rbit
  | 7 => decodeBI w .sbit
  | 8 => decodeBI w .si
  | 9 => decodeBI w .ai
  | 10 => decodeRR w .cb .c
  | 11 => decodeRR w .s .a
  | 12 => decodeRR w .eor .or
  | 13 => decodeRR w .lad .and
  | 14 => decodeRR w .dswp .bswp
  | 15 => decodeRR w .mvb .mv
  | _ => decodeM w

/-- The decoder's answer without the class of an undefined word. -/
def Decoded.toOption : Decoded → Option Instr
  | .instr i => some i
  | .undefined _ => none

/-- The instruction the decoder reads from a row's bits: `nbits` bits of `w`, the bits above them
zero. -/
def decodeTableWord (nbits w : Nat) : Option Instr :=
  (decode (BitVec.ofNat 16 (w % 2 ^ nbits))).toOption

/-! ### Encoding -/

/-- Format M (R101): `1 op mode r disp`. -/
def encodeM (op : BitVec 1) (r : BitVec 3) (ea : Ea) : Word :=
  1#1 ++ op ++ ea.mode.code ++ r ++ ea.disp

/-- Format RR (R102): `op5 rd c sub rs`. -/
def encodeRR (op5 : BitVec 5) (sub : BitVec 1) (rd rs : Reg) (c : Cond) : Word :=
  op5 ++ rd.code ++ c.code ++ sub ++ rs.code

/-- Format SH (R103): `00100 rn c 1 dir em`. -/
def encodeSH (dir : BitVec 1) (rn : Reg) (em : Em) (c : Cond) : Word :=
  4#5 ++ rn.code ++ c.code ++ 1#1 ++ dir ++ em.code

/-- Format BI (R104): `op5 rn c i4`. -/
def encodeBI (op5 : BitVec 5) (rn : Reg) (i4 : BitVec 4) (c : Cond) : Word :=
  op5 ++ rn.code ++ c.code ++ i4

/-- Format I8 (R105): `op5 rn i8`. -/
def encodeI8 (op5 : BitVec 5) (rn : Reg) (i8 : Byte) : Word :=
  op5 ++ rn.code ++ i8

/-- Format Z (R106): `00100 rn 0000 0 fn`. -/
def encodeZ (rn fn : BitVec 3) : Word :=
  4#5 ++ rn ++ 0#4 ++ 0#1 ++ fn

/-- The word of an instruction (R101 to R106). For an ill-formed L or ST (R13) the word is that of
IMS, DMS: there is no word for it. -/
def encode : Instr → Word
  | .l r ea => encodeM 1 r.code ea
  | .st r ea => encodeM 0 r.code ea
  | .ims ea => encodeM 1 6 ea
  | .dms ea => encodeM 0 6 ea
  | .b ea => encodeM 1 7 ea
  | .bal ea => encodeM 0 7 ea
  | .ret => encodeZ 0 3
  | .a rd rs c => encodeRR 0b01011 1 rd rs c
  | .s rd rs c => encodeRR 0b01011 0 rd rs c
  | .and rd rs c => encodeRR 0b01101 1 rd rs c
  | .or rd rs c => encodeRR 0b01100 1 rd rs c
  | .eor rd rs c => encodeRR 0b01100 0 rd rs c
  | .c rd rs c => encodeRR 0b01010 1 rd rs c
  | .cb rd rs c => encodeRR 0b01010 0 rd rs c
  | .mv rd rs c => encodeRR 0b01111 1 rd rs c
  | .mvb rd rs c => encodeRR 0b01111 0 rd rs c
  | .bswp rd rs c => encodeRR 0b01110 1 rd rs c
  | .dswp rd rs c => encodeRR 0b01110 0 rd rs c
  | .lad rd rs c => encodeRR 0b01101 0 rd rs c
  | .sl rn em c => encodeSH 1 rn em c
  | .sr rn em c => encodeSH 0 rn em c
  | .sbit rn i4 c => encodeBI 0b00111 rn i4 c
  | .rbit rn i4 c => encodeBI 0b00110 rn i4 c
  | .tbit rn i4 c => encodeBI 0b00101 rn i4 c
  | .ai rn i4 c => encodeBI 0b01001 rn i4 c
  | .si rn i4 c => encodeBI 0b01000 rn i4 c
  | .mvi rn i8 => encodeI8 0b00001 rn i8
  | .rd rn i8 => encodeI8 0b00011 rn i8
  | .wt rn i8 => encodeI8 0b00010 rn i8
  | .lpsw i2 => encodeZ 0 (1#1 ++ i2)
  | .h => encodeZ 0 0
  | .push rn => encodeZ rn.code 1
  | .pop rn => encodeZ rn.code 2

end Sys2Proof
end

