-- ==== Sys2Proof/Config.lean ====
section
/-!
DEFINITION. What an implementation fixes and what nothing fixes.

* The implementation parameters of 00_scope.md section 4 (`P_…`): plain data, kept in
  `State.cfg`, so that a statement about every state holds for every setting (log entry 1). The
  values of the reference configuration CFG0 are in Machine/Reference.lean.
* The free values: opaque constants, of which nothing can be proved (log entry 9).
-/

namespace Sys2Proof.Config

/-- P_BIT_ORDER (92 D1, R206): which end of a word the source's "bit 0" is. -/
inductive BitOrder where
  | lsb0
  | msb0
deriving DecidableEq, Repr

/-- P_ENCODING (R100): the encoding of R100 to R109, or some other total decode function
(`otherDecode`). -/
inductive Encoding where
  | cfg0
  | other
deriving DecidableEq, Repr

/-- P_REL_BASE (R67, 92 D5): "(IC)" is the address of the instruction plus 0 or plus 1. -/
inductive RelBase where
  | zero
  | one
deriving DecidableEq, Repr

/-- P_STACK (R133, 92 D10). -/
inductive StackDiscipline where
  | pushPostDec
  | pushPreDec
  | pushPostInc
  | pushPreInc
deriving DecidableEq, Repr

/-- P_E_ON_SUB (92 D11): E after a subtraction. -/
inductive EOnSub where
  | carry
  | borrow
deriving DecidableEq, Repr

/-- P_LCOND (R96, 92 D12): how conditions 12 to 15 compare. -/
inductive LCond where
  | unsigned
  | signed
deriving DecidableEq, Repr

/-- P_FLAGS_CMP, P_FLAGS_IMM, P_FLAGS_LAD (92 D13): whether the family writes E and V. -/
inductive FlagPolicy where
  | update
  | keep
deriving DecidableEq, Repr

/-- P_MVB_UPPER (R171, 92 D17). -/
inductive MvbUpper where
  | keep
  | zero
deriving DecidableEq, Repr

/-- P_MVI_UPPER (R205, 92 D18). -/
inductive MviUpper where
  | zero
  | keep
  | sign
deriving DecidableEq, Repr

/-- P_LAD_FN (R185, R186, 92 D21): the reading of LAD's sentence; `uninterpreted` is the total
function of which R186 says a model may assume nothing (`ladValue`). -/
inductive LadFn where
  | pattern
  | sum
  | adjusted
  | patternDecimal
  | uninterpreted
deriving DecidableEq, Repr

/-- P_STR_UNUSED (R24, 92 D22): what a read of STR bits 1, 3, 4 returns. -/
inductive StrUnused where
  | any
  | zero
  | storage
deriving DecidableEq, Repr

/-- The three interrupt levels (R233). -/
inductive Level where
  | level0
  | level1
  | level2
deriving DecidableEq, Repr

/-- P_IRQ_PRIORITY (R239): one of the six orders of the three levels. -/
inductive IrqPriority where
  | order012
  | order021
  | order102
  | order120
  | order201
  | order210
deriving DecidableEq, Repr

/-- One memory address for each interrupt level: P_OPSW and P_NPSW (R237). -/
structure LevelAddresses where
  level0 : Word
  level1 : Word
  level2 : Word
deriving DecidableEq, Repr

/-- P_PSW_ORDER (R237): which word of a PSW slot is the STR word. -/
inductive PswOrder where
  | strFirst
  | icFirst
deriving DecidableEq, Repr

/-- P_HALT_RESUME (R218, 92 D25): where IC stands after a halt. -/
inductive HaltResume where
  | next
  | same
deriving DecidableEq, Repr

/-- R261: whether the processor runs by itself after reset or waits for STRT. -/
inductive ResetStart where
  | running
  | untilStrt
deriving DecidableEq, Repr

/-- The parameters of 00_scope.md section 4, in the order of its table, and the option of R261. -/
structure Params where
  bitOrder : BitOrder
  encoding : Encoding
  relBase : RelBase
  stack : StackDiscipline
  eOnSub : EOnSub
  lcond : LCond
  flagsCmp : FlagPolicy
  flagsImm : FlagPolicy
  flagsLad : FlagPolicy
  mvbUpper : MvbUpper
  mviUpper : MviUpper
  ladFn : LadFn
  strUnused : StrUnused
  irqEnableLevel : Bool
  irqPriority : IrqPriority
  opsw : LevelAddresses
  npsw : LevelAddresses
  pswOrder : PswOrder
  resetIc : Word
  resetStr : Word
  haltResume : HaltResume
  resetStart : ResetStart
deriving DecidableEq, Repr

/-- The outcome of the magnitude comparison that conditions 12 to 15 read (R96). -/
inductive Magnitude where
  | lt
  | eq
  | gt
deriving DecidableEq, Repr, Inhabited

/-- The n-th unspecified word: nothing is known of it (log entry 9; 93 U1, U2, U4, U8, U9, R47). -/
opaque freeWord : Nat → Word

/-- The n-th unspecified magnitude comparison (R96, 93 U5, log entry 14). -/
opaque freeMagnitude : Nat → Magnitude

/-- LAD's function under `LadFn.uninterpreted` (R186, log entry 23). -/
opaque ladValue : Word → Word → Word

/-- The decode function under `Encoding.other`; `none` is an undefined word (R100, 92 D4, log
entry 4). -/
opaque otherDecode : Word → Option Instr

end Sys2Proof.Config
end

