-- ==== Sys2Proof/Machine/Memory.lean ====
section
/-!
DEFINITION. The memory as plain data: 65536 words of 16 bits (R40), each held as two bytes in a list
of cells in one canonical form. The byte at key 2a is bits 7..0 of the word at address a, the byte at
key 2a + 1 is bits 15..8. No program can see this order (R42): every access is one word (R41). DESIGN
CHOICE, safe (log entry 6).
-/

namespace Sys2Proof.Machine

/-- The cells that differ from what an unlisted key reads as. -/
abbrev Memory := List Host.Cell

/-- What a byte that nothing has written reads as (R45, 93 U11: the spec gives no value). DESIGN
CHOICE, unsafe (log entry 5). -/
def unlistedByte : Byte := 0

/-- One more than the greatest key: two bytes for each of the 2^16 words (R40). -/
def memoryKeys : Nat := 131072

/-- The byte at a key. -/
def readByte : Memory → Nat → Byte
  | [], _ => unlistedByte
  | (k, v) :: rest, key => if key = k then v else readByte rest key

/-- A cell, unless its byte is the one an unlisted key reads as. -/
def consCell (k : Nat) (v : Byte) (rest : Memory) : Memory :=
  if v = unlistedByte then rest else (k, v) :: rest

/-- Replace the byte at a key, keeping the canonical form. -/
def writeByte : Memory → Nat → Byte → Memory
  | [], key, b => consCell key b []
  | (k, v) :: rest, key, b =>
    if key < k then consCell key b ((k, v) :: rest)
    else if key = k then consCell key b rest
    else (k, v) :: writeByte rest key b

/-- The canonical form from a key on: keys strictly rising and inside the address space, and no cell
that an unlisted key would read as. -/
def wfFrom : Nat → Memory → Bool
  | _, [] => true
  | low, (k, v) :: rest =>
    decide (low ≤ k) && decide (k < memoryKeys) && decide (v ≠ unlistedByte) && wfFrom (k + 1) rest

/-- The canonical form of a memory. -/
def Memory.wf (m : Memory) : Bool := wfFrom 0 m

/-- The key of the lower byte of a word. -/
def wordKey (a : Word) : Nat := 2 * a.toNat

/-- The word at an address (R40, R41). -/
def readWord (m : Memory) (a : Word) : Word :=
  readByte m (wordKey a + 1) ++ readByte m (wordKey a)

/-- Replace the word at an address (R40, R41). -/
def writeWord (m : Memory) (a v : Word) : Memory :=
  writeByte (writeByte m (wordKey a) (v.extractLsb' 0 8)) (wordKey a + 1) (v.extractLsb' 8 8)

/-! ### The launch map -/

/-- What an address holds (R45, 93 U9). -/
inductive MemKind where
  | ram
  | rom
  | absent
deriving DecidableEq, Repr

/-- The addresses `first` to `last`, both included, and what they hold (R45). -/
structure Region where
  first : Word
  last : Word
  kind : MemKind
deriving DecidableEq, Repr

/-- What the launch map says of an address: the first region that has it decides; an address in no
region is RAM (R45, 93 U9; log entry 7). -/
def kindAt : List Region → Word → MemKind
  | [], _ => .ram
  | g :: rest, a => if g.first.toNat ≤ a.toNat ∧ a.toNat ≤ g.last.toNat then g.kind else kindAt rest a

end Sys2Proof.Machine
end

