-- ==== Sys2Proof/Machine/Reference.lean ====
section
/-!
DEFINITION. The reference configuration CFG0 of 00_scope.md section 4, and the values the model
names for reset where the spec gives none (log entries 2, 3).
-/

namespace Sys2Proof.Machine

open Sys2Proof.Config

/-- R0 to R4 and SP in `State.reset`. R15, R260: the spec gives no value. DESIGN CHOICE, unsafe (log
entry 2). -/
def resetGeneral : Word := 0

/-- P_RESET_IC. R260: the spec gives no value. DESIGN CHOICE, unsafe (log entry 3). -/
def referenceResetIc : Word := 0

/-- P_RESET_STR. R260: the spec gives no value. DESIGN CHOICE, unsafe (log entry 3). -/
def referenceResetStr : Word := 0

/-- CFG0 P_OPSW(l) = 2·l (R237). -/
def referenceOpsw : LevelAddresses := { level0 := 0x0000, level1 := 0x0002, level2 := 0x0004 }

/-- CFG0 P_NPSW(l) = 0x0100 + 2·l (R237). -/
def referenceNpsw : LevelAddresses := { level0 := 0x0100, level1 := 0x0102, level2 := 0x0104 }

/-- The column CFG0 of 00_scope.md section 4; P_STR_UNUSED = any is the spec's choice (R24), and the
processor runs after reset (10_state.md, R260, R261; log entry 20). -/
def cfg0 : Params where
  bitOrder := .lsb0
  encoding := .cfg0
  relBase := .zero
  stack := .pushPostDec
  eOnSub := .carry
  lcond := .unsigned
  flagsCmp := .update
  flagsImm := .update
  flagsLad := .update
  mvbUpper := .keep
  mviUpper := .zero
  ladFn := .pattern
  strUnused := .any
  irqEnableLevel := true
  irqPriority := .order012
  opsw := referenceOpsw
  npsw := referenceNpsw
  pswOrder := .strFirst
  resetIc := referenceResetIc
  resetStr := referenceResetStr
  haltResume := .next
  resetStart := .running

end Sys2Proof.Machine
end

