-- ==== Sys2Proof/Machine/State.lean ====
section
/-!
DEFINITION. The state of the machine (10_state.md, 20_memory.md) as plain data, why a step can stop,
and the state after reset (R260).
-/

namespace Sys2Proof.Machine

open Sys2Proof.Config

/-- Why the processor is halted. The hardware records no difference between the first two; R231 asks
a model to keep them apart. `awaitingStart` is the wait for STRT after reset that R261 allows. -/
inductive HaltCause where
  | hInstruction
  | undefinedInstruction
  | awaitingStart
deriving DecidableEq, Repr

/-- The run/halt flag of R28, with the cause of R231. -/
inductive RunState where
  | running
  | halted (cause : HaltCause)
deriving DecidableEq, Repr

/-- The input pins that have a described function (R28, R29, R30, R260): true when asserted. -/
structure Pins where
  irq0 : Bool
  irq1 : Bool
  irq2 : Bool
  strt : Bool
  rst : Bool
deriving DecidableEq, Repr

/-- No pin asserted. -/
def Pins.quiet : Pins := { irq0 := false, irq1 := false, irq2 := false, strt := false, rst := false }

/-- One access to the I/O space (R46, R47). -/
inductive IoEvent where
  /-- `IORead(port)` and the word it returned -/
  | read (port : Byte) (value : Word)
  /-- `IOWrite(port, value)` -/
  | write (port : Byte) (value : Word)
deriving DecidableEq, Repr

/-- The machine's state. The last three fields are the model's own, not the spec's. -/
structure State where
  /-- R0 to R4 (R10); R3 is also X0 and R4 also X1 (R11). -/
  r0 : Word
  r1 : Word
  r2 : Word
  r3 : Word
  r4 : Word
  /-- SP (R12). -/
  sp : Word
  /-- STR (R19); read and written as a register through `readStr` and `writeStr` only (R24, R25). -/
  str : Word
  /-- IC, the pseudocode's `pc` (R16). -/
  ic : Word
  /-- Running or halted (R28). -/
  run : RunState
  /-- The memory (R40). -/
  mem : Memory
  /-- The launch map (R45). -/
  map : List Region
  /-- The pins at the last boundary (R29). -/
  pins : Pins
  /-- The I/O accesses so far, oldest first (R47). -/
  ioLog : List IoEvent
  /-- The implementation parameters (00_scope.md section 4; log entry 1). -/
  cfg : Params
  /-- How many unspecified values have been drawn (log entry 9). -/
  draws : Nat
  /-- The pin levels the host applies at the coming boundaries (R29, R272; log entry 17). -/
  schedule : List Pins
  /-- What the platform answers to the coming RDs (R47; log entry 21). -/
  ioAnswers : List Word
deriving DecidableEq, Repr

/-- Why a step stops with a fault. The machine has no fault, trap or check of any kind (R230, R273),
so there is no constructor: nobody raises one. -/
inductive Fault where
deriving DecidableEq, Repr

/-- Why a step has no meaning. -/
inductive Refusal where
  /-- Raised by `exec` alone, for an instruction without a meaning; no arm does so now. Safe: the
  machine stops where the hardware would go on. -/
  | notModelled (mnemonic : String)
deriving DecidableEq, Repr

/-- What a step or a meaning answers. -/
abbrev Result := Host.Outcome State Fault Refusal

/-- The machine after reset (R260) in the reference configuration: IC and STR from the parameters,
running, memory with nothing listed. R0 to R4 and SP hold a value the model names (log entry 2). -/
def State.reset : State where
  r0 := resetGeneral
  r1 := resetGeneral
  r2 := resetGeneral
  r3 := resetGeneral
  r4 := resetGeneral
  sp := resetGeneral
  str := cfg0.resetStr
  ic := cfg0.resetIc
  run := .running
  mem := []
  map := []
  pins := Pins.quiet
  ioLog := []
  cfg := cfg0
  draws := 0
  schedule := []
  ioAnswers := []

end Sys2Proof.Machine
end

