-- ==== Sys2Proof/Machine/Ops.lean ====
section
/-!
DEFINITION. The shared operations over memory, I/O and registers; the stack (R133); halting (R231),
leaving the halted state (R232), taking an interrupt (R237, R238) and returning from it (R217, R240),
and reset (R260).
-/

namespace Sys2Proof.Machine

open Sys2Proof.Config

/-- A value read, and the state after the read. A read changes nothing but the count of drawn values
and, for an I/O read, the I/O record. -/
structure Read where
  value : Word
  after : State

/-! ### Free values -/

/-- Count one drawn free value (log entry 9). -/
def State.bump (s : State) : State := { s with draws := s.draws + 1 }

/-- An unspecified word (log entry 9). -/
def drawWord (s : State) : Read := { value := freeWord s.draws, after := s.bump }

/-! ### Instruction counter -/

/-- `pc <- a` (R18). -/
def State.setIc (s : State) (a : Word) : State := { s with ic := a }

/-- `Next(skip)` of 00_scope.md section 5.3: IC + 1, or + 2 when the skip is taken, modulo 2^16
(R17). -/
def advance (skip : Bool) (s : State) : State := s.setIc (s.ic + if skip then 2 else 1)

/-! ### Memory -/

/-- `MemRead(a, 1)` (R41). A read where the platform has no memory gives an unspecified value (R45,
93 U9; log entry 7). -/
def memRead (a : Word) (s : State) : Read :=
  match kindAt s.map a with
  | .absent => drawWord s
  | .ram | .rom => { value := readWord s.mem a, after := s }

/-- `MemWrite(a, 1, v)` (R41). A write to ROM or where there is no memory is dropped (93 U9; log
entry 7). -/
def memWrite (a v : Word) (s : State) : State :=
  match kindAt s.map a with
  | .ram => { s with mem := writeWord s.mem a v }
  | .rom | .absent => s

/-! ### I/O -/

/-- `IORead(port)` (R47): the platform's next answer, or an unspecified word where the host's list is
used up; the access is recorded (log entry 21). -/
def ioRead (port : Byte) (s : State) : Read :=
  match s.ioAnswers with
  | v :: rest =>
    { value := v, after := { s with ioAnswers := rest, ioLog := s.ioLog ++ [.read port v] } }
  | [] =>
    let d := drawWord s
    { value := d.value, after := { d.after with ioLog := s.ioLog ++ [.read port d.value] } }

/-- `IOWrite(port, v)` (R47): the event is recorded in program order. -/
def ioWrite (port : Byte) (v : Word) (s : State) : State :=
  { s with ioLog := s.ioLog ++ [.write port v] }

/-! ### The bits of STR (R19) -/

/-- Where the source's bit `n` lies in a word, counted from the least significant end
(P_BIT_ORDER, 92 D1, R206). -/
def bitPosition (o : BitOrder) (n : Nat) : Nat :=
  match o with
  | .lsb0 => n
  | .msb0 => 15 - n

/-- The unused bits 1, 3 and 4 of STR (R24). -/
def unusedMask (o : BitOrder) : Word :=
  match o with
  | .lsb0 => 0x001A
  | .msb0 => 0x5800

/-- The bits E and V, numbers 0 and 2 (R20, R21). -/
def flagMask (o : BitOrder) : Word :=
  match o with
  | .lsb0 => 0x0005
  | .msb0 => 0xA000

/-- A word with the bits of `mask` from `new` and the others from `old`. -/
def mergeBits (mask old new : Word) : Word := (old &&& ~~~mask) ||| (new &&& mask)

/-- Bit `n` of STR in the source's numbering (R19). -/
def State.strBit (s : State) (n : Nat) : Bool := s.str.getLsbD (bitPosition s.cfg.bitOrder n)

/-- One bit of a word replaced. -/
def putBit (w : Word) (i : Nat) (b : Bool) : Word :=
  if b then w ||| (1#16 <<< i) else w &&& ~~~(1#16 <<< i)

/-- Write bit `n` of STR in the source's numbering, leaving the others (R19). -/
def State.setStrBit (s : State) (n : Nat) (b : Bool) : State :=
  { s with str := putBit s.str (bitPosition s.cfg.bitOrder n) b }

/-- E (R20). -/
def State.flagE (s : State) : Bool := s.strBit 0

/-- V (R21). -/
def State.flagV (s : State) : Bool := s.strBit 2

/-- `E <- b`. -/
def State.setE (s : State) (b : Bool) : State := s.setStrBit 0 b

/-- `V <- b`. -/
def State.setV (s : State) (b : Bool) : State := s.setStrBit 2 b

/-- `x[STR]` read (R25): all 16 bits; bits 1, 3, 4 as P_STR_UNUSED says, under `any` unspecified at
each read (R24, log entry 10). -/
def readStr (s : State) : Read :=
  match s.cfg.strUnused with
  | .any =>
    let d := drawWord s
    { value := mergeBits (unusedMask s.cfg.bitOrder) s.str d.value, after := d.after }
  | .zero => { value := s.str &&& ~~~(unusedMask s.cfg.bitOrder), after := s }
  | .storage => { value := s.str, after := s }

/-- `x[STR] <- v` (R25): Pk, M2 to M0, V and E are replaced; a write to bits 1, 3, 4 is dropped
unless P_STR_UNUSED is `storage` (R24, log entry 10). -/
def writeStr (v : Word) (s : State) : State :=
  match s.cfg.strUnused with
  | .any | .zero => { s with str := mergeBits (unusedMask s.cfg.bitOrder) v s.str }
  | .storage => { s with str := v }

/-! ### Registers -/

/-- What a register holds; for STR the stored word, which an instruction reads through `readStr`. -/
def State.reg (s : State) (r : Reg) : Word :=
  match r with
  | .r0 => s.r0
  | .r1 => s.r1
  | .r2 => s.r2
  | .r3 => s.r3
  | .r4 => s.r4
  | .sp => s.sp
  | .str => s.str

/-- `x[r]` read as an operand (R10 to R13, R25). -/
def readReg (r : Reg) (s : State) : Read :=
  match r with
  | .str => readStr s
  | .r0 | .r1 | .r2 | .r3 | .r4 | .sp => { value := s.reg r, after := s }

/-- `x[r] <- v` (R10 to R13, R25). -/
def writeReg (r : Reg) (v : Word) (s : State) : State :=
  match r with
  | .r0 => { s with r0 := v }
  | .r1 => { s with r1 := v }
  | .r2 => { s with r2 := v }
  | .r3 => { s with r3 := v }
  | .r4 => { s with r4 := v }
  | .sp => { s with sp := v }
  | .str => writeStr v s

/-! ### The stack (R133) -/

/-- Where `Push` stores, from SP before it. -/
def pushAddress (s : State) : Word :=
  match s.cfg.stack with
  | .pushPostDec | .pushPostInc => s.sp
  | .pushPreDec => s.sp - 1
  | .pushPreInc => s.sp + 1

/-- SP after `Push`. -/
def pushedSp (s : State) : Word :=
  match s.cfg.stack with
  | .pushPostDec | .pushPreDec => s.sp - 1
  | .pushPostInc | .pushPreInc => s.sp + 1

/-- `Push(v)`. -/
def push (v : Word) (s : State) : State := { memWrite (pushAddress s) v s with sp := pushedSp s }

/-- Where `Pop` reads, from SP before it. -/
def popAddress (s : State) : Word :=
  match s.cfg.stack with
  | .pushPostDec => s.sp + 1
  | .pushPostInc => s.sp - 1
  | .pushPreDec | .pushPreInc => s.sp

/-- SP after `Pop`. -/
def poppedSp (s : State) : Word :=
  match s.cfg.stack with
  | .pushPostDec | .pushPreDec => s.sp + 1
  | .pushPostInc | .pushPreInc => s.sp - 1

/-- `Pop()`. -/
def pop (s : State) : Read :=
  let r := memRead (popAddress s) s
  { value := r.value, after := { r.after with sp := poppedSp s } }

/-! ### Halting (R231) and starting again (R232) -/

/-- `raise Halt(cause)` with the IC that R218 leaves (P_HALT_RESUME). -/
def raiseHalt (cause : HaltCause) (s : State) : State :=
  { s with
    ic := match s.cfg.haltResume with
      | .next => s.ic + 1
      | .same => s.ic
    run := .halted cause }

/-- A signal on STRT while halted: the processor runs and continues at IC (R232). -/
def leaveHalt (s : State) : State := { s with run := .running }

/-! ### Interrupts (R233 to R240) -/

/-- The number of a level. -/
def levelNumber (l : Level) : Nat :=
  match l with
  | .level0 => 0
  | .level1 => 1
  | .level2 => 2

/-- The level an I2 names; 3 names none (R217). -/
def levelOfI2 (i2 : BitVec 2) : Option Level :=
  match i2.toNat with
  | 0 => some .level0
  | 1 => some .level1
  | 2 => some .level2
  | _ => none

/-- The level's request pin (R233). -/
def Pins.request (p : Pins) (l : Level) : Bool :=
  match l with
  | .level0 => p.irq0
  | .level1 => p.irq1
  | .level2 => p.irq2

/-- P_IRQ_PRIORITY as the order in which levels are tried (R239). -/
def priorityOrder (p : IrqPriority) : List Level :=
  match p with
  | .order012 => [.level0, .level1, .level2]
  | .order021 => [.level0, .level2, .level1]
  | .order102 => [.level1, .level0, .level2]
  | .order120 => [.level1, .level2, .level0]
  | .order201 => [.level2, .level0, .level1]
  | .order210 => [.level2, .level1, .level0]

/-- `Enabled(l)`: the level's mask bit has the value P_IRQ_ENABLE_LEVEL (R234, R235). -/
def levelEnabled (l : Level) (s : State) : Bool :=
  s.strBit (5 + levelNumber l) == s.cfg.irqEnableLevel

/-- The interrupt taken at a boundary: the first level of the order that is asserted and enabled
(R238, R239). -/
def pendingInterrupt (s : State) : Option Level :=
  (priorityOrder s.cfg.irqPriority).find? fun l => s.pins.request l && levelEnabled l s

/-- The address of a level (R237). -/
def levelAddress (t : LevelAddresses) (l : Level) : Word :=
  match l with
  | .level0 => t.level0
  | .level1 => t.level1
  | .level2 => t.level2

/-- `WritePSW(a, str, ic)` (R237); the second address wraps (log entry 22). -/
def writePsw (a strWord icWord : Word) (s : State) : State :=
  match s.cfg.pswOrder with
  | .strFirst => memWrite (a + 1) icWord (memWrite a strWord s)
  | .icFirst => memWrite (a + 1) strWord (memWrite a icWord s)

/-- Load STR and IC from a PSW slot: `ReadPSW(a)`, `x[STR] <- str`, `pc <- ic` (R237, R217, R238). -/
def loadPsw (a : Word) (s : State) : State :=
  let first := memRead a s
  let second := memRead (a + 1) first.after
  match s.cfg.pswOrder with
  | .strFirst => (writeStr first.value second.after).setIc second.value
  | .icFirst => (writeStr second.value second.after).setIc first.value

/-- Taking the interrupt of level `l` (R238): STR and IC go to the level's old-PSW slot, STR and IC
come from its new-PSW slot, nothing else is saved. -/
def takeInterrupt (l : Level) (s : State) : State :=
  let old := readStr s
  loadPsw (levelAddress s.cfg.npsw l) (writePsw (levelAddress s.cfg.opsw l) old.value s.ic old.after)

/-- Returning from the interrupt of level `l` (R217, R240): STR and IC come from the level's old-PSW
slot. -/
def returnFromInterrupt (l : Level) (s : State) : State := loadPsw (levelAddress s.cfg.opsw l) s

/-! ### Reset (R260) -/

/-- What RST does: IC = P_RESET_IC, STR = P_RESET_STR; R0 to R4 and SP unspecified (93 U1: a fresh
unknown value each, log entry 20); running, or waiting for STRT (R261); memory and I/O unchanged. -/
def applyReset (s : State) : State :=
  { s with
    r0 := freeWord s.draws
    r1 := freeWord (s.draws + 1)
    r2 := freeWord (s.draws + 2)
    r3 := freeWord (s.draws + 3)
    r4 := freeWord (s.draws + 4)
    sp := freeWord (s.draws + 5)
    draws := s.draws + 6
    str := s.cfg.resetStr
    ic := s.cfg.resetIc
    run := match s.cfg.resetStart with
      | .running => .running
      | .untilStrt => .halted .awaitingStart }

end Sys2Proof.Machine
end

