-- ==== Sys2Proof/Machine/Operands.lean ====
section
/-!
DEFINITION. Operand forms: the effective address (R65 to R74), the operand pair Rd,Rs (R142), the
bit an I4 names (R206), the immediates (R63), and the byte and digit rearrangements (R172, R173).
-/

namespace Sys2Proof.Machine

open Sys2Proof.Config

/-- `zext_16` of an 8-bit value: the displacement D (R65). -/
def zext8 (v : Byte) : Word := v.zeroExtend 16

/-- `sext_16` of an 8-bit value: the displacement d (R65). -/
def sext8 (v : Byte) : Word := v.signExtend 16

/-- `zext_16` of a 4-bit immediate (R63, 92 D19). -/
def zext4 (v : BitVec 4) : Word := v.zeroExtend 16

/-- "(IC)": the address of the executing instruction plus P_REL_BASE (R16, R67, 92 D5). -/
def relativeBase (s : State) : Word :=
  match s.cfg.relBase with
  | .zero => s.ic
  | .one => s.ic + 1

/-- `EA(mode, disp)` (R66 to R74): at most one pointer word is read, nothing is written, all sums
wrap (92 D6). -/
def effectiveAddress (ea : Ea) (s : State) : Read :=
  match ea.mode with
  | .zeroPage => { value := zext8 ea.disp, after := s }
  | .relative => { value := relativeBase s + sext8 ea.disp, after := s }
  | .zeroPageIndirect => memRead (zext8 ea.disp) s
  | .relativeIndirect => memRead (relativeBase s + sext8 ea.disp) s
  | .indexX0 => { value := s.r3 + zext8 ea.disp, after := s }
  | .indexX1 => { value := s.r4 + zext8 ea.disp, after := s }
  | .indirectX0 =>
    let p := memRead (zext8 ea.disp) s
    { value := s.r3 + p.value, after := p.after }
  | .indirectX1 =>
    let p := memRead (zext8 ea.disp) s
    { value := s.r4 + p.value, after := p.after }

/-- The two operands of Rd,Rs and the state after reading them. -/
structure Pair where
  dst : Word
  src : Word
  after : State

/-- Both registers are read before anything is written (R142). When Rd and Rs are one register the
two operands are one value, also for STR: so R140, R141, R150 to R152 and R160; for CB and LAD
DEDUCED (log entry 11). -/
def readPair (rd rs : Reg) (s : State) : Pair :=
  let d := readReg rd s
  if rd = rs then { dst := d.value, src := d.value, after := d.after }
  else
    let r := readReg rs d.after
    { dst := d.value, src := r.value, after := r.after }

/-- `BitMask(i4)` (R206). -/
def bitMask (o : BitOrder) (i4 : BitVec 4) : Word := 1#16 <<< bitPosition o i4.toNat

/-- The lower byte of a register, bits 7..0 (R42). -/
def lowByte (v : Word) : Byte := v.extractLsb' 0 8

/-- The upper byte of a register, bits 15..8 (R42). -/
def highByte (v : Word) : Byte := v.extractLsb' 8 8

/-- BSWP: the two bytes exchanged (R172). -/
def swapBytes (v : Word) : Word := lowByte v ++ highByte v

/-- DSWP: the two middle digits exchanged (R173). -/
def swapDigits (v : Word) : Word :=
  v.extractLsb' 12 4 ++ v.extractLsb' 4 4 ++ v.extractLsb' 8 4 ++ v.extractLsb' 0 4

/-- The word MVB leaves in Rd, from the old Rd and the byte moved (R171, P_MVB_UPPER). -/
def mvbResult (p : MvbUpper) (old : Word) (b : Byte) : Word :=
  match p with
  | .keep => highByte old ++ b
  | .zero => 0#8 ++ b

end Sys2Proof.Machine
end

