-- ==== Sys2Proof/Machine/Flags.lean ====
section
/-!
DEFINITION. The adder (00_scope.md section 5.3), the values of E and V (R20, R21, R27), the magnitude
comparison (R96), the skip conditions (R79 to R95), the E-register mode (R78) and LAD's function
(R185, R186).
-/

namespace Sys2Proof.Machine

open Sys2Proof.Config

/-- The outputs of `Add` and `Sub`. -/
structure Adder (w : Nat) where
  res : BitVec w
  carry : Bool
  ovf : Bool
deriving DecidableEq, Repr

/-- `Add(a, b, cin, w)` of 00_scope.md section 5.3. -/
def add {w : Nat} (a b : BitVec w) (cin : Bool) : Adder w :=
  let full := a.toNat + b.toNat + cin.toNat
  let res := BitVec.ofNat w full
  { res := res
    carry := decide (2 ^ w ≤ full)
    ovf := a.msb == b.msb && res.msb != a.msb }

/-- `Sub(a, b, w)` of 00_scope.md section 5.3: a + ~b + 1. -/
def sub {w : Nat} (a b : BitVec w) : Adder w := add a (~~~b) true

/-- `EofSub(carry)` (P_E_ON_SUB, R141). -/
def eOfSub (p : EOnSub) (carry : Bool) : Bool :=
  match p with
  | .carry => carry
  | .borrow => !carry

/-- `mag` from the adder outputs and the result judged (R96, P_LCOND). -/
def magnitude {w : Nat} (p : LCond) (res : BitVec w) (carry ovf : Bool) : Magnitude :=
  if res = 0 then .eq
  else
    match p with
    | .unsigned => if carry then .gt else .lt
    | .signed => if res.msb != ovf then .lt else .gt

/-- `Cond(c, res, w, mag)` (R80 to R95), E and V given. -/
def conditionHolds {w : Nat} (c : Cond) (res : BitVec w) (e v : Bool) (mag : Magnitude) : Bool :=
  let n := res.msb
  let z := res == 0
  match c with
  | .never => false
  | .skp => true
  | .m => n
  | .pz => !n
  | .z => z
  | .nz => !z
  | .mz => n || z
  | .p => !n && !z
  | .ez => !e
  | .enz => e
  | .oz => !v
  | .onz => v
  | .lmz => mag == .lt || mag == .eq
  | .lp => mag == .gt
  | .lpz => mag == .gt || mag == .eq
  | .lm => mag == .lt

/-- Conditions 12 to 15, the ones that read `mag` (R92 to R96). -/
def usesMagnitude (c : Cond) : Bool :=
  match c with
  | .lmz | .lp | .lpz | .lm => true
  | .never | .skp | .m | .pz | .z | .nz | .mz | .p | .ez | .enz | .oz | .onz => false

/-- The end of an instruction with adder outputs: the condition is judged on the result and on E and
V after the instruction's own writes (R79), then `Next`. -/
def finish {w : Nat} (c : Cond) (res : BitVec w) (mag : Magnitude) (s : State) : State :=
  advance (conditionHolds c res s.flagE s.flagV mag) s

/-- The end of an instruction without adder outputs: as `finish`, with a free magnitude for
conditions 12 to 15 (R96, 93 U5, log entry 14). -/
def finishFree {w : Nat} (c : Cond) (res : BitVec w) (s : State) : State :=
  let t := finish c res (freeMagnitude s.draws) s
  if usesMagnitude c then t.bump else t

/-- E and V, the other bits of STR as they were. -/
def setFlags (e v : Bool) (s : State) : State := (s.setE e).setV v

/-- E and V hold unspecified values: what two competing writes to them leave (R26, 93 U4, log entry
12). The other bits of STR are as they were. -/
def freeFlags (s : State) : State :=
  { s with
    str := mergeBits (flagMask s.cfg.bitOrder) s.str (freeWord s.draws)
    draws := s.draws + 1 }

/-- The flag writes of A, S, LAD, AI and SI after their register write: E and V as given, or
unspecified when STR was the destination (R26). -/
def writeFlags (rd : Reg) (e v : Bool) (s : State) : State :=
  if rd = .str then freeFlags s else setFlags e v s

/-- The write of E by SL and SR after their register write; E and V unspecified when STR was the
destination (R26, 93 U4). -/
def writeE (rn : Reg) (e : Bool) (s : State) : State :=
  if rn = .str then freeFlags s else s.setE e

/-- A family's flag writes under its parameter (92 D13). -/
def underPolicy (p : FlagPolicy) (f : State → State) (s : State) : State :=
  match p with
  | .update => f s
  | .keep => s

/-- `ApplyEM(em)` (R78). -/
def applyEm (em : Em) (s : State) : State :=
  match em with
  | .keep => s
  | .re => s.setE false
  | .se => s.setE true
  | .ce => s.setE (!s.flagE)

/-- A word shifted left by one, `e` entering at bit 0 (R190). -/
def shiftLeftIn (v : Word) (e : Bool) : Word := v.extractLsb' 0 15 ++ BitVec.ofBool e

/-- A word shifted right by one, `e` entering at bit 15 (R191). -/
def shiftRightIn (v : Word) (e : Bool) : Word := BitVec.ofBool e ++ v.extractLsb' 1 15

/-! ### LAD (R185, R186) -/

/-- Digit `i` of a word: bits 4i+3 .. 4i. -/
def digit (v : Word) (i : Nat) : Nat := v.toNat / 16 ^ i % 16

/-- The carry out of digit `i`, when a digit carries from the sum `limit` on. -/
def digitCarry (limit : Nat) (a b : Word) : Nat → Bool
  | 0 => decide (limit ≤ digit a 0 + digit b 0)
  | i + 1 => decide (limit ≤ digit a (i + 1) + digit b (i + 1) + (digitCarry limit a b i).toNat)

/-- 6 in every digit that carries and 0 in the others (R185). -/
def carryPattern (limit : Nat) (a b : Word) : Word :=
  let d (i : Nat) : BitVec 4 := if digitCarry limit a b i then 6 else 0
  d 3 ++ d 2 ++ d 1 ++ d 0

/-- The value LAD stores in Rd (P_LAD_FN: R185, and the readings of R186; log entry 23). -/
def ladResult (p : LadFn) (a b : Word) : Word :=
  match p with
  | .pattern => carryPattern 16 a b
  | .sum => a + b
  | .adjusted => a + b + carryPattern 16 a b
  | .patternDecimal => carryPattern 10 a b
  | .uninterpreted => ladValue a b

end Sys2Proof.Machine
end

