-- ==== Sys2Proof/Machine/Arithmetic.lean ====
section
/-!
DEFINITION. The arithmetic instructions A and S (42_arithmetic.md).
-/

namespace Sys2Proof.Machine

/-- R140. -/
def execA (rd rs : Reg) (c : Cond) (s : State) : Result :=
  let p := readPair rd rs s
  let r := add p.dst p.src false
  let t := writeFlags rd r.carry r.ovf (writeReg rd r.res p.after)
  .next (finish c r.res (magnitude s.cfg.lcond r.res r.carry r.ovf) t)

/-- R141. -/
def execS (rd rs : Reg) (c : Cond) (s : State) : Result :=
  let p := readPair rd rs s
  let r := sub p.dst p.src
  let t := writeFlags rd (eOfSub s.cfg.eOnSub r.carry) r.ovf (writeReg rd r.res p.after)
  .next (finish c r.res (magnitude s.cfg.lcond r.res r.carry r.ovf) t)

end Sys2Proof.Machine
end

