-- ==== Sys2Proof/Machine/BitImmediate.lean ====
section
/-!
DEFINITION. SBIT, RBIT, TBIT, AI, SI, MVI (48_bit_immediate.md).
-/

namespace Sys2Proof.Machine

open Sys2Proof.Config

/-- R200: the result judged is the whole new register. -/
def execSbit (rn : Reg) (i4 : BitVec 4) (c : Cond) (s : State) : Result :=
  let v := readReg rn s
  let res := v.value ||| bitMask s.cfg.bitOrder i4
  .next (finishFree c res (writeReg rn res v.after))

/-- R201: the result judged is the whole new register. -/
def execRbit (rn : Reg) (i4 : BitVec 4) (c : Cond) (s : State) : Result :=
  let v := readReg rn s
  let res := v.value &&& ~~~(bitMask s.cfg.bitOrder i4)
  .next (finishFree c res (writeReg rn res v.after))

/-- R202: the value judged is the register masked to the one bit (92 D20); nothing is written. -/
def execTbit (rn : Reg) (i4 : BitVec 4) (c : Cond) (s : State) : Result :=
  let v := readReg rn s
  .next (finishFree c (v.value &&& bitMask s.cfg.bitOrder i4) v.after)

/-- R203. -/
def execAi (rn : Reg) (i4 : BitVec 4) (c : Cond) (s : State) : Result :=
  let v := readReg rn s
  let r := add v.value (zext4 i4) false
  let t := underPolicy s.cfg.flagsImm (writeFlags rn r.carry r.ovf) (writeReg rn r.res v.after)
  .next (finish c r.res (magnitude s.cfg.lcond r.res r.carry r.ovf) t)

/-- R204. -/
def execSi (rn : Reg) (i4 : BitVec 4) (c : Cond) (s : State) : Result :=
  let v := readReg rn s
  let r := sub v.value (zext4 i4)
  let t := underPolicy s.cfg.flagsImm (writeFlags rn (eOfSub s.cfg.eOnSub r.carry) r.ovf)
    (writeReg rn r.res v.after)
  .next (finish c r.res (magnitude s.cfg.lcond r.res r.carry r.ovf) t)

/-- R205 (P_MVI_UPPER); only the setting `keep` reads the register. -/
def execMvi (rn : Reg) (i8 : Byte) (s : State) : Result :=
  match s.cfg.mviUpper with
  | .zero => .next (advance false (writeReg rn (zext8 i8) s))
  | .sign => .next (advance false (writeReg rn (sext8 i8) s))
  | .keep =>
    let v := readReg rn s
    .next (advance false (writeReg rn (highByte v.value ++ i8) v.after))

end Sys2Proof.Machine
end

