-- ==== Sys2Proof/Machine/Branch.lean ====
section
/-!
DEFINITION. The branch instructions B, BAL, RET (41_branch.md).
-/

namespace Sys2Proof.Machine

/-- R130: the target is the effective address itself (92 D8). -/
def execB (ea : Ea) (s : State) : Result :=
  let a := effectiveAddress ea s
  .next (a.after.setIc a.value)

/-- R131: the target is formed first, then the Link `pc + 1` is pushed. -/
def execBal (ea : Ea) (s : State) : Result :=
  let a := effectiveAddress ea s
  .next ((push (s.ic + 1) a.after).setIc a.value)

/-- R132. -/
def execRet (s : State) : Result :=
  let p := pop s
  .next (p.after.setIc p.value)

end Sys2Proof.Machine
end

