-- ==== Sys2Proof/Machine/Compare.lean ====
section
/-!
DEFINITION. The compare instructions C and CB (44_compare.md).
-/

namespace Sys2Proof.Machine

open Sys2Proof.Config

/-- The difference of two values judged and not stored; E and V under P_FLAGS_CMP (R160, R161). -/
def compareValues {w : Nat} (x y : BitVec w) (c : Cond) (s : State) : State :=
  let r := sub x y
  let t := underPolicy s.cfg.flagsCmp (setFlags (eOfSub s.cfg.eOnSub r.carry) r.ovf) s
  finish c r.res (magnitude s.cfg.lcond r.res r.carry r.ovf) t

/-- R160. -/
def execC (rd rs : Reg) (c : Cond) (s : State) : Result :=
  let p := readPair rd rs s
  .next (compareValues p.dst p.src c p.after)

/-- R161: the lower bytes alone. -/
def execCb (rd rs : Reg) (c : Cond) (s : State) : Result :=
  let p := readPair rd rs s
  .next (compareValues (lowByte p.dst) (lowByte p.src) c p.after)

end Sys2Proof.Machine
end

