-- ==== Sys2Proof/Machine/Decimal.lean ====
section
/-!
DEFINITION. The decimal adjust instruction LAD (46_decimal.md).
-/

namespace Sys2Proof.Machine

/-- R185: Rd receives LAD's function of the operands, E and V come from the binary addition under
P_FLAGS_LAD, and the value judged is the one stored. -/
def execLad (rd rs : Reg) (c : Cond) (s : State) : Result :=
  let p := readPair rd rs s
  let r := add p.dst p.src false
  let res := ladResult s.cfg.ladFn p.dst p.src
  let t := underPolicy s.cfg.flagsLad (writeFlags rd r.carry r.ovf) (writeReg rd res p.after)
  .next (finish c res (magnitude s.cfg.lcond res r.carry r.ovf) t)

end Sys2Proof.Machine
end

