-- ==== Sys2Proof/Machine/IoMisc.lean ====
section
/-!
DEFINITION. RD, WT, LPSW, H, PUSH, POP (49_io_misc.md).
-/

namespace Sys2Proof.Machine

/-- R215. -/
def execRd (rn : Reg) (i8 : Byte) (s : State) : Result :=
  let v := ioRead i8 s
  .next (advance false (writeReg rn v.value v.after))

/-- R216. -/
def execWt (rn : Reg) (i8 : Byte) (s : State) : Result :=
  let v := readReg rn s
  .next (advance false (ioWrite i8 v.value v.after))

/-- R217. I2 = 3 names no level: it acts as an undefined instruction, the reading 93 U7 gives a model
that runs it (log entry 15). -/
def execLpsw (i2 : BitVec 2) (s : State) : Result :=
  match levelOfI2 i2 with
  | some l => .next (returnFromInterrupt l s)
  | none => .next (raiseHalt .undefinedInstruction s)

/-- R218. -/
def execH (s : State) : Result := .next (raiseHalt .hInstruction s)

/-- R219: the register is read before SP changes (R221). -/
def execPush (rn : Reg) (s : State) : Result :=
  let v := readReg rn s
  .next (advance false (push v.value v.after))

/-- R220. `POP SP` has two writers of SP in no order (R221, 93 U8): SP then holds an unspecified word
(log entry 16). -/
def execPop (rn : Reg) (s : State) : Result :=
  let p := pop s
  if rn = .sp then
    let d := drawWord p.after
    .next (advance false (writeReg rn d.value d.after))
  else .next (advance false (writeReg rn p.value p.after))

end Sys2Proof.Machine
end

