-- ==== Sys2Proof/Machine/LoadStore.lean ====
section
/-!
DEFINITION. The memory operation instructions L, ST, IMS, DMS (40_memory_ops.md).
-/

namespace Sys2Proof.Machine

/-- R120. -/
def execL (r : Reg) (ea : Ea) (s : State) : Result :=
  let a := effectiveAddress ea s
  let v := memRead a.value a.after
  .next (advance false (writeReg r v.value v.after))

/-- R121. -/
def execSt (r : Reg) (ea : Ea) (s : State) : Result :=
  let a := effectiveAddress ea s
  let v := readReg r a.after
  .next (advance false (memWrite a.value v.value v.after))

/-- A memory word read, changed by `delta`, written back and judged: the shape of IMS and DMS. -/
def countMemory (delta : Word) (ea : Ea) (s : State) : State :=
  let a := effectiveAddress ea s
  let old := memRead a.value a.after
  let v := old.value + delta
  advance (v == 0) (memWrite a.value v old.after)

/-- R122: the word plus 1, skip when the new value is zero; E and V unchanged. -/
def execIms (ea : Ea) (s : State) : Result := .next (countMemory 1 ea s)

/-- R123: the word minus 1, skip when the new value is zero; E and V unchanged. -/
def execDms (ea : Ea) (s : State) : Result := .next (countMemory (-1) ea s)

end Sys2Proof.Machine
end

