-- ==== Sys2Proof/Machine/Logical.lean ====
section
/-!
DEFINITION. The logical instructions AND, OR, EOR (43_logical.md); CLR Rn is EOR Rn,Rn (R153).
-/

namespace Sys2Proof.Machine

/-- Rd replaced by a bitwise combination of Rd and Rs; E and V unchanged; the condition judged on the
result. -/
def combine (f : Word → Word → Word) (rd rs : Reg) (c : Cond) (s : State) : State :=
  let p := readPair rd rs s
  let res := f p.dst p.src
  finishFree c res (writeReg rd res p.after)

/-- R150. -/
def execAnd (rd rs : Reg) (c : Cond) (s : State) : Result := .next (combine (· &&& ·) rd rs c s)

/-- R151. -/
def execOr (rd rs : Reg) (c : Cond) (s : State) : Result := .next (combine (· ||| ·) rd rs c s)

/-- R152. -/
def execEor (rd rs : Reg) (c : Cond) (s : State) : Result := .next (combine (· ^^^ ·) rd rs c s)

end Sys2Proof.Machine
end

