-- ==== Sys2Proof/Machine/MoveSwap.lean ====
section
/-!
DEFINITION. The move and swap instructions MV, MVB, BSWP, DSWP (45_move_swap.md).
-/

namespace Sys2Proof.Machine

/-- Rd replaced by a function of Rs; E and V unchanged; the condition judged on the result. -/
def moveThrough (f : Word → Word) (rd rs : Reg) (c : Cond) (s : State) : State :=
  let v := readReg rs s
  let res := f v.value
  finishFree c res (writeReg rd res v.after)

/-- R170. -/
def execMv (rd rs : Reg) (c : Cond) (s : State) : Result := .next (moveThrough id rd rs c s)

/-- R171: the condition is judged on the byte moved. -/
def execMvb (rd rs : Reg) (c : Cond) (s : State) : Result :=
  let p := readPair rd rs s
  let b := lowByte p.src
  .next (finishFree c b (writeReg rd (mvbResult s.cfg.mvbUpper p.dst b) p.after))

/-- R172. -/
def execBswp (rd rs : Reg) (c : Cond) (s : State) : Result := .next (moveThrough swapBytes rd rs c s)

/-- R173. -/
def execDswp (rd rs : Reg) (c : Cond) (s : State) : Result :=
  .next (moveThrough swapDigits rd rs c s)

end Sys2Proof.Machine
end

