-- ==== Sys2Proof/Machine/Shift.lean ====
section
/-!
DEFINITION. The shift instructions SL and SR (47_shift.md), in the order of R192: EM, shift, E,
condition. With STR the register is read after EM (log entry 13).
-/

namespace Sys2Proof.Machine

/-- R190. -/
def execSl (rn : Reg) (em : Em) (c : Cond) (s : State) : Result :=
  let s1 := applyEm em s
  let v := readReg rn s1
  let res := shiftLeftIn v.value s1.flagE
  .next (finishFree c res (writeE rn v.value.msb (writeReg rn res v.after)))

/-- R191. -/
def execSr (rn : Reg) (em : Em) (c : Cond) (s : State) : Result :=
  let s1 := applyEm em s
  let v := readReg rn s1
  let res := shiftRightIn v.value s1.flagE
  .next (finishFree c res (writeE rn (v.value.getLsbD 0) (writeReg rn res v.after)))

end Sys2Proof.Machine
end

