-- ==== Sys2Proof/Machine/Dispatch.lean ====
section
/-!
DEFINITION. One arm per constructor of Instr, each a direct call of the instruction's meaning.
-/

namespace Sys2Proof.Machine

def exec (i : Instr) (s : State) : Host.Outcome State Fault Refusal :=
  match i with
  | .l r ea => Sys2Proof.Machine.execL r ea s
  | .st r ea => Sys2Proof.Machine.execSt r ea s
  | .ims ea => Sys2Proof.Machine.execIms ea s
  | .dms ea => Sys2Proof.Machine.execDms ea s
  | .b ea => Sys2Proof.Machine.execB ea s
  | .bal ea => Sys2Proof.Machine.execBal ea s
  | .ret => Sys2Proof.Machine.execRet s
  | .a rd rs c => Sys2Proof.Machine.execA rd rs c s
  | .s rd rs c => Sys2Proof.Machine.execS rd rs c s
  | .and rd rs c => Sys2Proof.Machine.execAnd rd rs c s
  | .or rd rs c => Sys2Proof.Machine.execOr rd rs c s
  | .eor rd rs c => Sys2Proof.Machine.execEor rd rs c s
  | .c rd rs c => Sys2Proof.Machine.execC rd rs c s
  | .cb rd rs c => Sys2Proof.Machine.execCb rd rs c s
  | .mv rd rs c => Sys2Proof.Machine.execMv rd rs c s
  | .mvb rd rs c => Sys2Proof.Machine.execMvb rd rs c s
  | .bswp rd rs c => Sys2Proof.Machine.execBswp rd rs c s
  | .dswp rd rs c => Sys2Proof.Machine.execDswp rd rs c s
  | .lad rd rs c => Sys2Proof.Machine.execLad rd rs c s
  | .sl rn em c => Sys2Proof.Machine.execSl rn em c s
  | .sr rn em c => Sys2Proof.Machine.execSr rn em c s
  | .sbit rn i4 c => Sys2Proof.Machine.execSbit rn i4 c s
  | .rbit rn i4 c => Sys2Proof.Machine.execRbit rn i4 c s
  | .tbit rn i4 c => Sys2Proof.Machine.execTbit rn i4 c s
  | .ai rn i4 c => Sys2Proof.Machine.execAi rn i4 c s
  | .si rn i4 c => Sys2Proof.Machine.execSi rn i4 c s
  | .mvi rn i8 => Sys2Proof.Machine.execMvi rn i8 s
  | .rd rn i8 => Sys2Proof.Machine.execRd rn i8 s
  | .wt rn i8 => Sys2Proof.Machine.execWt rn i8 s
  | .lpsw i2 => Sys2Proof.Machine.execLpsw i2 s
  | .h => Sys2Proof.Machine.execH s
  | .push rn => Sys2Proof.Machine.execPush rn s
  | .pop rn => Sys2Proof.Machine.execPop rn s

end Sys2Proof.Machine
end

