-- ==== Sys2Proof/Machine/Cycle.lean ====
section
/-!
DEFINITION. What happens at an instruction boundary: the pins are read (R29, R236), then RST (R260),
STRT while halted (R232), an enabled interrupt request while running (R236 to R239), or the fetch and
execution of one instruction (R48, R108). Log entries 17, 18, 19.
-/

namespace Sys2Proof.Machine

open Sys2Proof.Config

/-- The pin levels at this boundary: the host's next ones; once the host's list is used up they stay
as they are. -/
def samplePins (s : State) : State :=
  match s.schedule with
  | [] => s
  | p :: rest => { s with pins := p, schedule := rest }

/-- P_ENCODING as a total decode function; `none` is an undefined word (R100, R108, R109). Under every
encoding L and ST name no STR (R13): where `otherDecode` gives such an instruction the word encodes
none of the 33 (DEDUCED, log entry 4). -/
def decodeWord (e : Encoding) (w : Word) : Option Instr :=
  match e with
  | .cfg0 => (decode w).toOption
  | .other => (otherDecode w).filter Instr.wellFormed

/-- The instruction fetch: an ordinary memory read at IC (R48, R52). -/
def fetch (s : State) : Read := memRead s.ic s

/-- One instruction: an undefined word acts as H (R108, R231). -/
def runInstruction (s : State) : Result :=
  let w := fetch s
  match decodeWord s.cfg.encoding w.value with
  | some i => exec i w.after
  | none => .next (raiseHalt .undefinedInstruction w.after)

/-- The machine at a boundary whose pins are read. The state an interrupt entry leaves is at a boundary
again, so that a second enabled request is taken before the handler's first instruction; R236, R238
and R239 do not say whether the end of an entry is one. DESIGN CHOICE (log entry 18). -/
def boundary (s : State) : Result :=
  if s.pins.rst then .next (applyReset s)
  else
    match s.run with
    | .halted _ => .next (if s.pins.strt then leaveHalt s else s)
    | .running =>
      match pendingInterrupt s with
      | some l => .next (takeInterrupt l s)
      | none => runInstruction s

/-- Read the pins, then act on them. -/
def cycle (s : State) : Result := boundary (samplePins s)

/-- The word `w` where the next step fetches, and what that fetch needs: a running processor, no pin
asserted at the coming boundary, memory present at IC, and the encoding of `decode`. -/
def placeInstruction (s : State) (w : Word) : State :=
  { s with
    mem := writeWord s.mem s.ic w
    map := match kindAt s.map s.ic with
      | .absent => { first := s.ic, last := s.ic, kind := .ram } :: s.map
      | .ram | .rom => s.map
    run := .running
    pins := Pins.quiet
    schedule := match s.schedule with
      | [] => []
      | _ :: rest => Pins.quiet :: rest
    cfg := { s.cfg with encoding := .cfg0 } }

end Sys2Proof.Machine
end

