-- ==== Sys2Proof/Safety.lean ====
section
/-!
DEFINITION. The terms in which statements about the machine are made: what a register read may give
and what a register write leaves (R24, R25), what is unchanged, where a store lands (93 U9), how IC
moves (R17, R79), how a run ends (R273), which instructions use no unspecified behaviour (93), and the
invariant that every step keeps.
-/

namespace Sys2Proof.Machine

open Sys2Proof.Config

/-! ### Registers -/

/-- The numbers of the unused bits of STR (R24). -/
def unusedBits : List Nat := [1, 3, 4]

/-- Bit `n` of a word in the source's numbering (R206). -/
def wordBit (s : State) (v : Word) (n : Nat) : Bool := v.getLsbD (bitPosition s.cfg.bitOrder n)

/-- `v` is a value a read of `r` may give: the register's content; for STR the defined bits, and bits
1, 3, 4 as P_STR_UNUSED says, which under `any` is no restriction (R24, R25). -/
def ReadsAs (r : Reg) (s : State) (v : Word) : Prop :=
  match r with
  | .str =>
    (∀ n, n < 16 → n ∉ unusedBits → wordBit s v n = s.strBit n) ∧
      (s.cfg.strUnused = .zero → ∀ n ∈ unusedBits, wordBit s v n = false) ∧
      (s.cfg.strUnused = .storage → ∀ n ∈ unusedBits, wordBit s v n = s.strBit n)
  | .r0 | .r1 | .r2 | .r3 | .r4 | .sp => v = s.reg r

/-- `x` and `y` are values the operands Rd and Rs may have; one value when they are one register
(R142, R152). -/
def OperandsRead (rd rs : Reg) (s : State) (x y : Word) : Prop :=
  ReadsAs rd s x ∧ ReadsAs rs s y ∧ (rd = rs → x = y)

/-- From `s` to `t` the register `r` received `v`. For STR: the defined bits are those of `v`, except
the bits of `free`, of which nothing is said; bits 1, 3, 4 keep what they held, unless P_STR_UNUSED
is `storage` (R24, R25, R26). -/
def WrittenAs (r : Reg) (v : Word) (free : List Nat) (s t : State) : Prop :=
  match r with
  | .str =>
    (∀ n, n < 16 → n ∉ unusedBits → n ∉ free → t.strBit n = wordBit s v n) ∧
      (∀ n ∈ unusedBits,
        t.strBit n = if s.cfg.strUnused = .storage then wordBit s v n else s.strBit n)
  | .r0 | .r1 | .r2 | .r3 | .r4 | .sp => t.reg r = v

/-! ### What is unchanged -/

/-- Every byte of memory reads as before. -/
def SameMemory (s t : State) : Prop := ∀ k, readByte t.mem k = readByte s.mem k

/-- Every byte of memory outside the words at the addresses `as` reads as before. -/
def SameMemoryOutside (as : List Word) (s t : State) : Prop :=
  ∀ k, (∀ a ∈ as, k ≠ wordKey a ∧ k ≠ wordKey a + 1) → readByte t.mem k = readByte s.mem k

/-- A store of `v` at `a`: RAM holds it; ROM, or no memory, is as before (R45, 93 U9). -/
def StoredAt (a v : Word) (s t : State) : Prop :=
  readWord t.mem a = if kindAt s.map a = .ram then v else readWord s.mem a

/-- `v` is a value a read of memory at `a` may give: the word there, or anything where the platform
has no memory (R45, 93 U9). -/
def LoadsAs (a : Word) (s : State) (v : Word) : Prop :=
  kindAt s.map a ≠ .absent → v = readWord s.mem a

/-- The launch data and the pins are as before. -/
def SamePlatform (s t : State) : Prop :=
  t.map = s.map ∧ t.cfg = s.cfg ∧ t.pins = s.pins ∧ t.schedule = s.schedule

/-- The I/O space was not accessed (R46). -/
def SameIo (s t : State) : Prop := t.ioLog = s.ioLog ∧ t.ioAnswers = s.ioAnswers

/-- All registers but those of `regs` are as before; of STR, when it is not in `regs`, all bits but
those of `bits`; the launch data, the pins and the run state too. Memory, I/O and IC are stated
beside it. -/
def Frame (regs : List Reg) (bits : List Nat) (s t : State) : Prop :=
  (∀ r, r ≠ .str → r ∉ regs → t.reg r = s.reg r) ∧
    (Reg.str ∉ regs → ∀ n, n < 16 → n ∉ bits → t.strBit n = s.strBit n) ∧
    SamePlatform s t ∧ t.run = s.run

/-! ### IC -/

/-- `Next(Cond(c, res, w, mag))` (R17, R79), the condition judged on E and V of `t`. -/
def SkipsOn {w : Nat} (c : Cond) (res : BitVec w) (mag : Magnitude) (s t : State) : Prop :=
  t.ic = s.ic + if conditionHolds c res t.flagE t.flagV mag then 2 else 1

/-- The same for an instruction without adder outputs: conditions 12 to 15 have an unspecified
outcome (R96, 93 U5). -/
def SkipsFreely {w : Nat} (c : Cond) (res : BitVec w) (s t : State) : Prop :=
  ∃ mag, SkipsOn c res mag s t

/-! ### Boundaries -/

/-- From `s` to `u` nothing happened but that the pins were read: they are the host's next levels, or
those of the last boundary when the host's list is used up (R29, R236; log entry 17). -/
def PinsRead (s u : State) : Prop :=
  (s.schedule = [] → u = s) ∧
    ∀ p rest, s.schedule = p :: rest → u = { s with pins := p, schedule := rest }

/-! ### Effective addresses -/

/-- `a` is an effective address of `ea` (R65 to R74), a pointer word read as `LoadsAs` says. -/
def Addresses (ea : Ea) (s : State) (a : Word) : Prop :=
  match ea.mode with
  | .zeroPage => a = zext8 ea.disp
  | .relative => a = relativeBase s + sext8 ea.disp
  | .zeroPageIndirect => LoadsAs (zext8 ea.disp) s a
  | .relativeIndirect => LoadsAs (relativeBase s + sext8 ea.disp) s a
  | .indexX0 => a = s.r3 + zext8 ea.disp
  | .indexX1 => a = s.r4 + zext8 ea.disp
  | .indirectX0 => LoadsAs (zext8 ea.disp) s (a - s.r3)
  | .indirectX1 => LoadsAs (zext8 ea.disp) s (a - s.r4)

/-! ### Instructions -/

/-- The register an instruction names as its destination (R13). -/
def destinationOf : Instr → Option Reg
  | .l r _ => some r
  | .a rd _ _ | .s rd _ _ | .and rd _ _ | .or rd _ _ | .eor rd _ _ => some rd
  | .mv rd _ _ | .mvb rd _ _ | .bswp rd _ _ | .dswp rd _ _ | .lad rd _ _ => some rd
  | .sl rn _ _ | .sr rn _ _ | .sbit rn _ _ | .rbit rn _ _ | .ai rn _ _ | .si rn _ _ => some rn
  | .mvi rn _ | .rd rn _ | .pop rn => some rn
  | .st _ _ | .ims _ | .dms _ | .b _ | .bal _ | .ret | .c _ _ _ | .cb _ _ _ | .tbit _ _ _ => none
  | .wt _ _ | .lpsw _ | .h | .push _ => none

/-- The instructions that write memory (R41, R48). -/
def writesMemory : Instr → Bool
  | .st _ _ | .ims _ | .dms _ | .bal _ | .push _ => true
  | .l _ _ | .b _ | .ret | .a _ _ _ | .s _ _ _ | .and _ _ _ | .or _ _ _ | .eor _ _ _ => false
  | .c _ _ _ | .cb _ _ _ | .mv _ _ _ | .mvb _ _ _ | .bswp _ _ _ | .dswp _ _ _ | .lad _ _ _ => false
  | .sl _ _ _ | .sr _ _ _ | .sbit _ _ _ | .rbit _ _ _ | .tbit _ _ _ | .ai _ _ _ | .si _ _ _ => false
  | .mvi _ _ | .rd _ _ | .wt _ _ | .lpsw _ | .h | .pop _ => false

/-- The instructions that write E or V by their own rule (R27). -/
def writesFlags : Instr → Bool
  | .a _ _ _ | .s _ _ _ | .c _ _ _ | .cb _ _ _ | .lad _ _ _ | .sl _ _ _ | .sr _ _ _ => true
  | .ai _ _ _ | .si _ _ _ => true
  | .l _ _ | .st _ _ | .ims _ | .dms _ | .b _ | .bal _ | .ret | .and _ _ _ | .or _ _ _ => false
  | .eor _ _ _ | .mv _ _ _ | .mvb _ _ _ | .bswp _ _ _ | .dswp _ _ _ | .sbit _ _ _ => false
  | .rbit _ _ _ | .tbit _ _ _ | .mvi _ _ | .rd _ _ | .wt _ _ | .lpsw _ | .h | .push _ => false
  | .pop _ => false

/-- The instruction uses none of the behaviour that 93 leaves unspecified whatever the state: not U4
(under the parameters `p`), U5, U7 or U8. What is read from STR (U2) and from absent addresses (U9)
is not looked at. -/
def isSpecified (p : Params) : Instr → Bool
  | .a rd _ _ | .s rd _ _ => rd ≠ .str
  | .lad rd _ _ => rd ≠ .str || p.flagsLad = .keep
  | .ai rn _ _ | .si rn _ _ => rn ≠ .str || p.flagsImm = .keep
  | .sl rn _ c | .sr rn _ c => rn ≠ .str && !usesMagnitude c
  | .and _ _ c | .or _ _ c | .eor _ _ c => !usesMagnitude c
  | .mv _ _ c | .mvb _ _ c | .bswp _ _ c | .dswp _ _ c => !usesMagnitude c
  | .sbit _ _ c | .rbit _ _ c | .tbit _ _ c => !usesMagnitude c
  | .lpsw i2 => i2 ≠ 3
  | .pop rn => rn ≠ .sp
  | .l _ _ | .st _ _ | .ims _ | .dms _ | .b _ | .bal _ | .ret | .c _ _ _ | .cb _ _ _ => true
  | .mvi _ _ | .rd _ _ | .wt _ _ | .h | .push _ => true

/-! ### Runs -/

/-- The program ended at its H, not at an undefined word (R231, R273). -/
def EndedAtH (s : State) : Prop := s.run = .halted .hInstruction

/-- What every step keeps: the memory is in its canonical form, and, where P_STR_UNUSED does not make
them storage, the unused bits of STR and of P_RESET_STR are stored as 0. -/
def StateInvariant (s : State) : Prop :=
  Memory.wf s.mem = true ∧
    (s.cfg.strUnused ≠ .storage →
      s.str &&& unusedMask s.cfg.bitOrder = 0 ∧ s.cfg.resetStr &&& unusedMask s.cfg.bitOrder = 0)

end Sys2Proof.Machine
end

