-- ==== Sys2Proof/Certificates/Slice0/Obligations.lean ====
section
/-!
DEFINITION. The statements for the provers. Every statement about all states holds for every setting
of the parameters of 00_scope.md section 4 (they stand in `State.cfg`) and for every free value.
-/

open Sys2Proof Sys2Proof.Machine Sys2Proof.Config

/-! ### Encoding (30_encoding.md section 6) -/

/-- Decoding the word of a well-formed instruction gives the instruction back: no operand value the
encoding admits is lost (R101 to R106, R109). -/
def Obligations.DecodeOfEncode : Prop :=
  ∀ i : Instr, i.wellFormed = true → decode (encode i) = .instr i

/-- A word that decodes is the word of the instruction it decodes to, which is well-formed: no bit of
a word is ignored (R108 (c), R109). -/
def Obligations.EncodeOfDecode : Prop :=
  ∀ (w : Word) (i : Instr), decode w = .instr i → i.wellFormed = true ∧ encode i = w

/-- The undefined words are exactly those of R108: (a) 0x0000 to 0x07FF; (b) a register field holding
7; (c) a word of 0x2000 to 0x27FF with bit 3 = 0 that is none of H, RET, LPSW, PUSH, POP. -/
def Obligations.UndefinedWordsOfTheEncoding : Prop :=
  ∀ w : Word, (∃ why, decode w = .undefined why) ↔
    (w.toNat ≤ 0x07FF ∨
      (0x0800 ≤ w.toNat ∧ w.toNat ≤ 0x7FFF ∧ w.extractLsb' 8 3 = 7) ∨
      (0x5000 ≤ w.toNat ∧ w.toNat ≤ 0x7FFF ∧ w.extractLsb' 0 3 = 7) ∨
      (0x2000 ≤ w.toNat ∧ w.toNat ≤ 0x27FF ∧ w.getLsbD 3 = false ∧
        ¬ (w = 0x2000 ∨ w = 0x2003 ∨ (0x2004 ≤ w.toNat ∧ w.toNat ≤ 0x2007) ∨
            (w.extractLsb' 0 8 = 1 ∧ w.extractLsb' 8 3 ≠ 7) ∨
            (w.extractLsb' 0 8 = 2 ∧ w.extractLsb' 8 3 ≠ 7))))

/-- Words of the spec's own examples, one for each format, decode to the instruction beside them
(40 to 49, "Example:" lines). -/
def Obligations.ExampleWordsDecode : Prop :=
  decode 0xE105 = .instr (.l .r1 ⟨.indexX0, 5⟩) ∧
    decode 0x9630 = .instr (.dms ⟨.zeroPageIndirect, 0x30⟩) ∧
    decode 0x8F05 = .instr (.bal ⟨.relative, 5⟩) ∧
    decode 0x5998 = .instr (.a .r1 .r0 .enz) ∧
    decode 0x625B = .instr (.or .r2 .r3 .nz) ∧
    decode 0x210A = .instr (.sr .r1 .se .never) ∧
    decode 0x2A53 = .instr (.tbit .r2 3 .nz) ∧
    decode 0x1120 = .instr (.wt .r1 0x20) ∧
    decode 0x2005 = .instr (.lpsw 1) ∧ decode 0x2202 = .instr (.pop .r2)

/-! ### The step -/

/-- At a boundary where the processor runs and neither RST nor an enabled request is asserted, a step
is the meaning of the instruction that the word at IC decodes to, run at the state with the pins read:
the host's next levels, or the last ones when its list is used up, and nothing else changed (R29, R48,
R52, R236; the host's list is the model's form, log entry 17). -/
def Obligations.StepRunsDecodedInstruction : Prop :=
  ∀ (s u : State) (i : Instr), u = samplePins s → u.pins.rst = false → u.run = .running →
    pendingInterrupt u = none → u.cfg.encoding = .cfg0 → kindAt u.map u.ic ≠ .absent →
    decode (readWord u.mem u.ic) = .instr i → step s = exec i u ∧ PinsRead s u

/-- At such a boundary an undefined word does what H does; only the recorded cause differs (R108,
R231). -/
def Obligations.UndefinedWordActsAsH : Prop :=
  ∀ (s u : State) (why : Undefined), u = samplePins s → u.pins.rst = false → u.run = .running →
    pendingInterrupt u = none → u.cfg.encoding = .cfg0 → kindAt u.map u.ic ≠ .absent →
    decode (readWord u.mem u.ic) = .undefined why →
    ∃ t, exec .h u = .next t ∧ step s = .next { t with run := .halted .undefinedInstruction }

/-- An instruction placed with `withFetchWord` is the one the next step runs, whatever the state
(log entry 25). -/
def Obligations.PlacedInstructionRuns : Prop :=
  ∀ (s : State) (w : Word) (i : Instr), Memory.wf s.mem = true → decode w = .instr i →
    ∃ u, u = samplePins (s.withFetchWord 16 w.toNat) ∧
      step (s.withFetchWord 16 w.toNat) = exec i u ∧ ∀ r, u.reg r = s.reg r

/-- While halted, without STRT and RST, a step changes nothing but reads the pins; interrupt requests
are not recognised (R28, R242, spec decision D25). That a halted processor has such a step, and not no
step at all, is the model's choice (log entry 19). -/
def Obligations.HaltedStateUnchanged : Prop :=
  ∀ (s u : State) (cause : HaltCause), u = samplePins s → s.run = .halted cause →
    u.pins.strt = false → u.pins.rst = false → step s = .next u ∧
      SameMemory s u ∧ SameIo s u ∧ u.ic = s.ic ∧ u.run = s.run ∧ ∀ r, u.reg r = s.reg r

/-- While halted no interrupt is recognised: no register, memory word or I/O location changes and IC
stays; only STRT or reset ends the halt (R28, R242, spec decision D25). -/
def Obligations.HaltEndsOnlyByStrtOrReset : Prop :=
  ∀ (s t : State) (cause : HaltCause), s.run = .halted cause → step s = .next t →
    (t.run = .running → (samplePins s).pins.strt = true ∨ (samplePins s).pins.rst = true) ∧
    ((samplePins s).pins.rst = false →
      SameMemory s t ∧ SameIo s t ∧ t.ic = s.ic ∧ ∀ r, t.reg r = s.reg r)

/-- STRT while halted makes the processor run at IC and changes nothing else (R232). That this is a
step of its own, the next instruction being a later step, is the model's choice (log entry 18). -/
def Obligations.StrtResumesAtIc : Prop :=
  ∀ (s u : State) (cause : HaltCause), u = samplePins s → s.run = .halted cause →
    u.pins.rst = false → u.pins.strt = true →
    ∃ t, step s = .next t ∧ t.run = .running ∧ t.ic = s.ic ∧ SameMemory s t ∧ SameIo s t ∧
      ∀ r, t.reg r = s.reg r

/-- RST: IC and STR from the parameters, memory and I/O unchanged, running or waiting for STRT; R0 to
R4 and SP are unspecified and nothing is said of them (R260, R261). That RST goes before an enabled
request and before STRT at the same boundary is the model's choice (log entry 18), and so is the form of
R261's option as the parameter `resetStart` (log entry 20). -/
def Obligations.ResetMove : Prop :=
  ∀ (s u : State), u = samplePins s → u.pins.rst = true →
    ∃ t, step s = .next t ∧ t.ic = s.cfg.resetIc ∧ t.str = s.cfg.resetStr ∧
      t.run = (if s.cfg.resetStart = .running then .running else .halted .awaitingStart) ∧
      t.mem = s.mem ∧ SameIo s t ∧ SamePlatform u t

/-- What reset leaves in `State.reset`: IC = P_RESET_IC, STR = P_RESET_STR, running (R260), and the
invariant holds there. The two parameter values are the model's choice (log entry 3). -/
def Obligations.ResetStateMeetsInvariant : Prop :=
  State.reset.ic = State.reset.cfg.resetIc ∧ State.reset.str = State.reset.cfg.resetStr ∧
    State.reset.run = .running ∧ StateInvariant State.reset

/-! ### What every step does -/

/-- Every step keeps the canonical form of memory and the unused bits of STR as they are stored. -/
def Obligations.StepKeepsInvariant : Prop :=
  ∀ s t : State, StateInvariant s → step s = .next t → StateInvariant t

/-- The machine has no fault and no trap (R230, R273, log entry 28), so that every step has a next
state. That this holds for every state rests on choices of the model: an access to absent memory goes
on (log entry 7, one of the readings of 93 U9), LPSW 3 halts (log entry 15, 93 U7), and a halted
processor has a step that changes nothing (log entry 19). -/
def Obligations.NoStepStops : Prop :=
  ∀ s : State, ∃ t, step s = .next t

/-- No step changes the implementation parameters or the launch map (00_scope.md section 4, R45). -/
def Obligations.StepKeepsParameters : Prop :=
  ∀ s t : State, step s = .next t → t.cfg = s.cfg ∧ t.map = s.map

/-- Among instructions only ST, IMS, DMS, BAL and PUSH change memory (R41, R48). A step changes memory
only by executing one of them or by an interrupt entry (R238): the processor runs, RST is not
asserted, and either an enabled request is, or the word at IC decodes to such an instruction. The
premise that no other bus master writes memory (R53) is built into the model (log entry 26). That RST
is not asserted rests on R260, by which reset leaves memory as it is, and on the model's choice that
RST goes before all else at a boundary (log entry 18). -/
def Obligations.OnlyStoresChangeMemory : Prop :=
  (∀ (i : Instr) (s t : State), exec i s = .next t → writesMemory i = false → SameMemory s t) ∧
  ∀ s t u : State, u = samplePins s → step s = .next t → ¬ SameMemory s t →
    u.pins.rst = false ∧ u.run = .running ∧
      ((∃ l, pendingInterrupt u = some l) ∨
        ∃ i, decodeWord u.cfg.encoding (fetch u).value = some i ∧ writesMemory i = true)

/-- Only RD and WT reach the I/O space (R46). -/
def Obligations.OnlyRdAndWtReachIo : Prop :=
  ∀ (i : Instr) (s t : State), exec i s = .next t → (∀ r p, i ≠ .rd r p) → (∀ r p, i ≠ .wt r p) →
    SameIo s t

/-- Among instructions, M0 to M2 and Pk are written only by those that have STR as their destination
and by LPSW (R22, R23). -/
def Obligations.MasksAndKeyKept : Prop :=
  ∀ (i : Instr) (s t : State), exec i s = .next t → destinationOf i ≠ some .str →
    (∀ l, i ≠ .lpsw l) → ∀ n, 5 ≤ n → n < 16 → t.strBit n = s.strBit n

/-- The instructions that do not write E or V by their own rule leave both as they are, unless STR is
the destination; SL and SR leave V so (R27). -/
def Obligations.FlagsKept : Prop :=
  ∀ (i : Instr) (s t : State), exec i s = .next t → destinationOf i ≠ some .str →
    (∀ l, i ≠ .lpsw l) →
    (writesFlags i = false → t.flagE = s.flagE ∧ t.flagV = s.flagV) ∧
      (∀ rn em c, i = .sl rn em c ∨ i = .sr rn em c → t.flagV = s.flagV)

/-- Unless P_STR_UNUSED is `storage`, no instruction changes the unused bits of STR (R24). -/
def Obligations.UnusedBitsIgnoreWrites : Prop :=
  ∀ (i : Instr) (s t : State), exec i s = .next t → s.cfg.strUnused ≠ .storage →
    ∀ n ∈ unusedBits, t.strBit n = s.strBit n

/-- An instruction that uses none of the behaviours U4, U5, U7, U8 draws no free value, where STR
reads have a fixed value, all memory is present and the platform answers RD (93). -/
def Obligations.SpecifiedInstructionsDrawNothing : Prop :=
  ∀ (i : Instr) (s t : State), exec i s = .next t → isSpecified s.cfg i = true →
    s.cfg.strUnused ≠ .any → (∀ a, kindAt s.map a ≠ .absent) → s.ioAnswers ≠ [] →
    t.draws = s.draws

/-- A step ends at H only by executing H (R231, R273). -/
def Obligations.EndedAtHOnlyByH : Prop :=
  ∀ s t : State, step s = .next t → ¬ EndedAtH s → EndedAtH t →
    decodeWord s.cfg.encoding (fetch (samplePins s)).value = some .h

/-! ### Operands, conditions, stack -/

/-- The eight addressing modes, the pointer word of modes 2, 3, 6, 7 read where memory is present; no
register and no memory word is written (R66 to R73). -/
def Obligations.EffectiveAddressOfModes : Prop :=
  ∀ (d : Byte) (s : State),
    effectiveAddress ⟨.zeroPage, d⟩ s = ⟨d.zeroExtend 16, s⟩ ∧
    (d.zeroExtend 16 : Word).toNat ≤ 0x00FF ∧
    effectiveAddress ⟨.relative, d⟩ s =
      ⟨s.ic + (if s.cfg.relBase = .one then 1 else 0) + d.signExtend 16, s⟩ ∧
    (kindAt s.map (d.zeroExtend 16) ≠ .absent →
      effectiveAddress ⟨.zeroPageIndirect, d⟩ s = ⟨readWord s.mem (d.zeroExtend 16), s⟩ ∧
      effectiveAddress ⟨.indirectX0, d⟩ s = ⟨s.r3 + readWord s.mem (d.zeroExtend 16), s⟩ ∧
      effectiveAddress ⟨.indirectX1, d⟩ s = ⟨s.r4 + readWord s.mem (d.zeroExtend 16), s⟩) ∧
    (∀ a, a = s.ic + (if s.cfg.relBase = .one then 1 else 0) + d.signExtend 16 →
      kindAt s.map a ≠ .absent →
      effectiveAddress ⟨.relativeIndirect, d⟩ s = ⟨readWord s.mem a, s⟩) ∧
    effectiveAddress ⟨.indexX0, d⟩ s = ⟨s.r3 + d.zeroExtend 16, s⟩ ∧
    effectiveAddress ⟨.indexX1, d⟩ s = ⟨s.r4 + d.zeroExtend 16, s⟩

/-- Skip conditions 0 to 11 on a result of either width, read as a signed number (R80 to R91). -/
def Obligations.SkipConditionsOfTheResult : Prop :=
  ∀ (w : Nat) (res : BitVec w) (e v : Bool) (mag : Magnitude),
    (conditionHolds .never res e v mag = false) ∧
    (conditionHolds .skp res e v mag = true) ∧
    (conditionHolds .m res e v mag = true ↔ res.toInt < 0) ∧
    (conditionHolds .pz res e v mag = true ↔ 0 ≤ res.toInt) ∧
    (conditionHolds .z res e v mag = true ↔ res.toInt = 0) ∧
    (conditionHolds .nz res e v mag = true ↔ res.toInt ≠ 0) ∧
    (conditionHolds .mz res e v mag = true ↔ res.toInt ≤ 0) ∧
    (conditionHolds .p res e v mag = true ↔ 0 < res.toInt) ∧
    (conditionHolds .ez res e v mag = true ↔ e = false) ∧
    (conditionHolds .enz res e v mag = true ↔ e = true) ∧
    (conditionHolds .oz res e v mag = true ↔ v = false) ∧
    (conditionHolds .onz res e v mag = true ↔ v = true)

/-- Skip conditions 12 to 15 after a subtraction compare the minuend with the subtrahend, unsigned or
signed as P_LCOND says (R92 to R96 for S, C, CB, SI). -/
def Obligations.MagnitudeConditionsCompare : Prop :=
  ∀ (w : Nat) (x y : BitVec w) (p : LCond) (e v : Bool) (mag : Magnitude) (a b : Int),
    mag = magnitude p (x - y) (sub x y).carry (sub x y).ovf →
    a = (if p = .unsigned then (x.toNat : Int) else x.toInt) →
    b = (if p = .unsigned then (y.toNat : Int) else y.toInt) →
    (conditionHolds .lmz (x - y) e v mag = true ↔ a ≤ b) ∧
    (conditionHolds .lp (x - y) e v mag = true ↔ b < a) ∧
    (conditionHolds .lpz (x - y) e v mag = true ↔ b ≤ a) ∧
    (conditionHolds .lm (x - y) e v mag = true ↔ a < b)

/-- The E-register mode: E kept, 0, 1, or negated, and nothing else changed; SL and SR perform it
before the shift (R78, R192). For SL and SR of STR, whose result R26 leaves unspecified, that STR is
read after it is the model's reading (log entry 13). -/
def Obligations.EModeBeforeTheShift : Prop :=
  ∀ (em : Em) (s : State),
    (applyEm em s).flagE =
      (match em with
        | .keep => s.flagE
        | .re => false
        | .se => true
        | .ce => !s.flagE) ∧
    Frame [] [0] s (applyEm em s) ∧ SameMemory s (applyEm em s) ∧ SameIo s (applyEm em s) ∧
    (applyEm em s).ic = s.ic ∧
    ∀ (rn : Reg) (c : Cond),
      exec (.sl rn em c) s = exec (.sl rn .keep c) (applyEm em s) ∧
        exec (.sr rn em c) s = exec (.sr rn .keep c) (applyEm em s)

/-- `Push` and `Pop` under each P_STACK, SP wrapping; in each, Pop after Push returns the value and
restores SP, where the stack word is RAM (R133). -/
def Obligations.StackDisciplines : Prop :=
  ∀ (v : Word) (s : State),
    (s.cfg.stack = .pushPostDec →
      push v s = { memWrite s.sp v s with sp := s.sp - 1 } ∧
        (pop s).value = (memRead (s.sp + 1) s).value ∧
        (pop s).after = { (memRead (s.sp + 1) s).after with sp := s.sp + 1 }) ∧
    (s.cfg.stack = .pushPreDec →
      push v s = { memWrite (s.sp - 1) v s with sp := s.sp - 1 } ∧
        (pop s).value = (memRead s.sp s).value ∧
        (pop s).after = { (memRead s.sp s).after with sp := s.sp + 1 }) ∧
    (s.cfg.stack = .pushPostInc →
      push v s = { memWrite s.sp v s with sp := s.sp + 1 } ∧
        (pop s).value = (memRead (s.sp - 1) s).value ∧
        (pop s).after = { (memRead (s.sp - 1) s).after with sp := s.sp - 1 }) ∧
    (s.cfg.stack = .pushPreInc →
      push v s = { memWrite (s.sp + 1) v s with sp := s.sp + 1 } ∧
        (pop s).value = (memRead s.sp s).value ∧
        (pop s).after = { (memRead s.sp s).after with sp := s.sp - 1 }) ∧
    (Memory.wf s.mem = true → kindAt s.map (pushAddress s) = .ram →
      (pop (push v s)).value = v ∧ (pop (push v s)).after.sp = s.sp)

/-- PUSH Rn then POP Rn leaves every register, SP and STR among them, as it was; not for SP itself
(R221). -/
def Obligations.PushThenPopRestores : Prop :=
  ∀ (rn : Reg) (s : State), rn ≠ .sp → Memory.wf s.mem = true →
    kindAt s.map (pushAddress s) = .ram →
    ∃ t u, exec (.push rn) s = .next t ∧ exec (.pop rn) t = .next u ∧ ∀ r, u.reg r = s.reg r

/-- BAL then RET continues at the word after the BAL, with every register as it was (R131, R132). That
a BAL whose pointer word lies where there is no memory goes on is the model's choice (log entry 7, 93
U9). -/
def Obligations.CallThenReturn : Prop :=
  ∀ (ea : Ea) (s : State), Memory.wf s.mem = true → kindAt s.map (pushAddress s) = .ram →
    ∃ t u, exec (.bal ea) s = .next t ∧ exec .ret t = .next u ∧ u.ic = s.ic + 1 ∧
      ∀ r, u.reg r = s.reg r

/-! ### Interrupts -/

/-- `Enabled(l)`: STR bit 5, 6 or 7 has the value P_IRQ_ENABLE_LEVEL (R234, R235). That it is 1 in
CFG0 is spec decision D26 (log entry 8). -/
def Obligations.EnabledLevels : Prop :=
  ∀ s : State,
    (levelEnabled .level0 s = true ↔ s.strBit 5 = s.cfg.irqEnableLevel) ∧
    (levelEnabled .level1 s = true ↔ s.strBit 6 = s.cfg.irqEnableLevel) ∧
    (levelEnabled .level2 s = true ↔ s.strBit 7 = s.cfg.irqEnableLevel) ∧
    cfg0.irqEnableLevel = true

/-- The interrupt taken is the first level, in the order of P_IRQ_PRIORITY, that is asserted and
enabled; none is taken when no level is both (R238, R239). The requests of levels 0, 1, 2 are the pins
IRQ0, IRQ1, IRQ2 (R233), and the six values of P_IRQ_PRIORITY are the six orders (R239). -/
def Obligations.InterruptPriority : Prop :=
  ∀ s : State,
    (∀ l, pendingInterrupt s = some l ↔
      ∃ before later, priorityOrder s.cfg.irqPriority = before ++ l :: later ∧
        s.pins.request l = true ∧ levelEnabled l s = true ∧
        ∀ k ∈ before, ¬ (s.pins.request k = true ∧ levelEnabled k s = true)) ∧
    (pendingInterrupt s = none ↔
      ∀ l, ¬ (s.pins.request l = true ∧ levelEnabled l s = true)) ∧
    (∀ l, s.pins.request l =
      match l with
        | .level0 => s.pins.irq0
        | .level1 => s.pins.irq1
        | .level2 => s.pins.irq2) ∧
    ∀ p, priorityOrder p =
      match p with
        | .order012 => [.level0, .level1, .level2]
        | .order021 => [.level0, .level2, .level1]
        | .order102 => [.level1, .level0, .level2]
        | .order120 => [.level1, .level2, .level0]
        | .order201 => [.level2, .level0, .level1]
        | .order210 => [.level2, .level1, .level0]

/-- Interrupt entry: the old-PSW slot receives STR as a read gives it and IC, STR and IC come from
the new-PSW slot, and nothing else is saved or changed (R237, R238). The old slot is RAM, the new slot
is present, and the two do not overlap. That the entry is a step of its own is the model's choice (log
entry 18). -/
def Obligations.InterruptEntry : Prop :=
  ∀ (s u : State) (l : Level) (a b : Word), u = samplePins s → u.pins.rst = false →
    u.run = .running → pendingInterrupt u = some l → Memory.wf u.mem = true →
    a = levelAddress u.cfg.opsw l → b = levelAddress u.cfg.npsw l →
    kindAt u.map a = .ram → kindAt u.map (a + 1) = .ram →
    kindAt u.map b ≠ .absent → kindAt u.map (b + 1) ≠ .absent →
    b ≠ a → b ≠ a + 1 → b + 1 ≠ a →
    ∃ x t, ReadsAs .str u x ∧ step s = .next t ∧
      (u.cfg.pswOrder = .strFirst →
        readWord t.mem a = x ∧ readWord t.mem (a + 1) = u.ic ∧
          WrittenAs .str (readWord u.mem b) [] u t ∧ t.ic = readWord u.mem (b + 1)) ∧
      (u.cfg.pswOrder = .icFirst →
        readWord t.mem a = u.ic ∧ readWord t.mem (a + 1) = x ∧
          WrittenAs .str (readWord u.mem (b + 1)) [] u t ∧ t.ic = readWord u.mem b) ∧
      SameMemoryOutside [a, a + 1] u t ∧ Frame [.str] [] u t ∧ SameIo u t

/-- LPSW of the level returns to the interrupted program, with its STR (but for the unused bits), as
long as the handler left the old-PSW slot alone (R240). -/
def Obligations.InterruptReturn : Prop :=
  ∀ (s t u : State) (l : Level) (i2 : BitVec 2) (a : Word), Memory.wf s.mem = true →
    levelOfI2 i2 = some l → a = levelAddress s.cfg.opsw l →
    kindAt s.map a = .ram → kindAt s.map (a + 1) = .ram → t = takeInterrupt l s →
    u.cfg = t.cfg → u.map = t.map → readWord u.mem a = readWord t.mem a →
    readWord u.mem (a + 1) = readWord t.mem (a + 1) →
    ∃ v, exec (.lpsw i2) u = .next v ∧ v.ic = s.ic ∧
      ∀ n, n < 16 → n ∉ unusedBits → v.strBit n = s.strBit n

/-! ### What each instruction does -/

/-- L: the register receives the word at the effective address (R120). That L goes on, with a value of
which nothing is known, where that word or the pointer word lies where there is no memory is the
model's choice (log entry 7, 93 U9). -/
def Obligations.LoadResult : Prop :=
  ∀ (r : Reg) (ea : Ea) (s : State) (a : Word), r ≠ .str → a = (effectiveAddress ea s).value →
    ∃ v t, LoadsAs a s v ∧ exec (.l r ea) s = .next t ∧ t.reg r = v ∧ t.ic = s.ic + 1 ∧
      Frame [r] [] s t ∧ SameMemory s t ∧ SameIo s t

/-- ST: the word at the effective address receives the register, no other byte changes (R121). That a
store to ROM, or where there is no memory, is dropped, and that a pointer word read where there is none
is an unknown value, is the model's choice (log entry 7, 93 U9). -/
def Obligations.StoreResult : Prop :=
  ∀ (r : Reg) (ea : Ea) (s : State) (a : Word), r ≠ .str → Memory.wf s.mem = true →
    a = (effectiveAddress ea s).value →
    ∃ t, exec (.st r ea) s = .next t ∧ StoredAt a (s.reg r) s t ∧ SameMemoryOutside [a] s t ∧
      t.ic = s.ic + 1 ∧ Frame [] [] s t ∧ SameIo s t

/-- IMS and DMS: the word at the effective address plus or minus 1, a skip exactly when the new value
is zero, E and V unchanged (R122, R123). That a store to ROM, or where there is no memory, is dropped,
the skip following the value not stored, and that a word read where there is none is an unknown value,
is the model's choice (log entry 7, 93 U9). -/
def Obligations.CountMemoryResult : Prop :=
  ∀ (ea : Ea) (s : State) (a : Word), Memory.wf s.mem = true → a = (effectiveAddress ea s).value →
    (∃ v t, LoadsAs a s v ∧ exec (.ims ea) s = .next t ∧ StoredAt a (v + 1) s t ∧
      t.ic = s.ic + (if v = 0xFFFF then 2 else 1) ∧
      SameMemoryOutside [a] s t ∧ Frame [] [] s t ∧ SameIo s t) ∧
    (∃ v t, LoadsAs a s v ∧ exec (.dms ea) s = .next t ∧ StoredAt a (v - 1) s t ∧
      t.ic = s.ic + (if v = 0x0001 then 2 else 1) ∧
      SameMemoryOutside [a] s t ∧ Frame [] [] s t ∧ SameIo s t)

/-- B: IC becomes the effective address; no register, flag or memory word changes (R130). That B goes
on, to an unknown address, where the pointer word lies where there is no memory is the model's choice
(log entry 7, 93 U9). -/
def Obligations.BranchResult : Prop :=
  ∀ (ea : Ea) (s : State),
    ∃ t, exec (.b ea) s = .next t ∧ t.ic = (effectiveAddress ea s).value ∧
      Frame [] [] s t ∧ SameMemory s t ∧ SameIo s t

/-- BAL: the Link, the address of the next word, goes to the stack, and IC becomes the effective
address formed before the push (R131). That a Link pushed to ROM, or where there is no memory, is dropped,
and that a pointer word read where there is none is an unknown value, is the model's choice (log entry
7, 93 U9). -/
def Obligations.CallResult : Prop :=
  ∀ (ea : Ea) (s : State) (a : Word), Memory.wf s.mem = true → a = pushAddress s →
    ∃ t, exec (.bal ea) s = .next t ∧ t.ic = (effectiveAddress ea s).value ∧
      StoredAt a (s.ic + 1) s t ∧ SameMemoryOutside [a] s t ∧ t.sp = pushedSp s ∧
      Frame [.sp] [] s t ∧ SameIo s t

/-- RET: IC becomes the word popped; STR is not restored (R132). That RET goes on, to an unknown
address, where the stack word lies where there is no memory is the model's choice (log entry 7, 93
U9). -/
def Obligations.ReturnResult : Prop :=
  ∀ s : State,
    ∃ t, exec .ret s = .next t ∧ LoadsAs (popAddress s) s t.ic ∧ t.sp = poppedSp s ∧
      Frame [.sp] [] s t ∧ SameMemory s t ∧ SameIo s t

/-- A: the sum modulo 2^16, E the carry out of bit 15, V the signed overflow, the condition judged on
them (R140, R142). With STR as Rd R26 leaves the result unspecified: that only E and V are so, the
other bits coming from the sum, is the model's reading (log entry 12, 93 U4). Conditions 12 to 15
after a sum are R96's own generalisation (log entry 24, 93 U10). -/
def Obligations.AddResult : Prop :=
  ∀ (rd rs : Reg) (c : Cond) (s : State),
    ∃ x y t, OperandsRead rd rs s x y ∧ exec (.a rd rs c) s = .next t ∧
      WrittenAs rd (x + y) [0, 2] s t ∧
      (rd ≠ .str →
        (t.flagE = true ↔ 65536 ≤ x.toNat + y.toNat) ∧
        (t.flagV = true ↔ x.toInt + y.toInt < -32768 ∨ 32767 < x.toInt + y.toInt)) ∧
      SkipsOn c (x + y) (magnitude s.cfg.lcond (x + y) (add x y false).carry (add x y false).ovf) s t ∧
      Frame [rd] [0, 2] s t ∧ SameMemory s t ∧ SameIo s t

/-- S: the difference modulo 2^16, E from "no borrow" by P_E_ON_SUB, V the signed overflow, the
condition judged on them (R141, R142). With STR as Rd R26 leaves the result unspecified: that only E
and V are so, the other bits coming from the difference, is the model's reading (log entry 12, 93
U4). -/
def Obligations.SubtractResult : Prop :=
  ∀ (rd rs : Reg) (c : Cond) (s : State),
    ∃ x y t, OperandsRead rd rs s x y ∧ exec (.s rd rs c) s = .next t ∧
      WrittenAs rd (x - y) [0, 2] s t ∧
      (rd ≠ .str →
        (t.flagE = true ↔ (y.toNat ≤ x.toNat ↔ s.cfg.eOnSub = .carry)) ∧
        (t.flagV = true ↔ x.toInt - y.toInt < -32768 ∨ 32767 < x.toInt - y.toInt)) ∧
      SkipsOn c (x - y) (magnitude s.cfg.lcond (x - y) (sub x y).carry (sub x y).ovf) s t ∧
      Frame [rd] [0, 2] s t ∧ SameMemory s t ∧ SameIo s t

/-- AND, OR, EOR: Rd becomes the bitwise combination; E and V are unchanged unless STR is Rd; the
outcome of conditions 12 to 15 is unspecified (R150 to R152). -/
def Obligations.LogicalResult : Prop :=
  ∀ (rd rs : Reg) (c : Cond) (s : State),
    (∃ x y t, OperandsRead rd rs s x y ∧ exec (.and rd rs c) s = .next t ∧
      WrittenAs rd (x &&& y) [] s t ∧ SkipsFreely c (x &&& y) s t ∧
      Frame [rd] [] s t ∧ SameMemory s t ∧ SameIo s t) ∧
    (∃ x y t, OperandsRead rd rs s x y ∧ exec (.or rd rs c) s = .next t ∧
      WrittenAs rd (x ||| y) [] s t ∧ SkipsFreely c (x ||| y) s t ∧
      Frame [rd] [] s t ∧ SameMemory s t ∧ SameIo s t) ∧
    (∃ x y t, OperandsRead rd rs s x y ∧ exec (.eor rd rs c) s = .next t ∧
      WrittenAs rd (x ^^^ y) [] s t ∧ SkipsFreely c (x ^^^ y) s t ∧
      Frame [rd] [] s t ∧ SameMemory s t ∧ SameIo s t)

/-- CLR Rn, which is EOR Rn,Rn without a condition, clears Rn: all defined bits of STR when Rn is STR;
IC + 1; CLR R0 is the word 0x6000 (R153). -/
def Obligations.ClearMacro : Prop :=
  encode (.eor .r0 .r0 .never) = 0x6000 ∧
  ∀ (rn : Reg) (s : State),
    ∃ t, exec (.eor rn rn .never) s = .next t ∧ WrittenAs rn 0 [] s t ∧ t.ic = s.ic + 1 ∧
      Frame [rn] [] s t ∧ SameMemory s t ∧ SameIo s t

/-- C and CB: no register is written; E and V come from the difference of the words, or of the lower
bytes, under P_FLAGS_CMP; the condition is judged on the difference (R160, R161). That the operands of
CB STR,STR are one value, also where each read of STR has free bits (R24), is the model's reading (log
entry 11); R160 says it of C. -/
def Obligations.CompareResult : Prop :=
  ∀ (rd rs : Reg) (c : Cond) (s : State),
    (∃ x y t, OperandsRead rd rs s x y ∧ exec (.c rd rs c) s = .next t ∧
      (s.cfg.flagsCmp = .update →
        (t.flagE = true ↔ (y.toNat ≤ x.toNat ↔ s.cfg.eOnSub = .carry)) ∧
        (t.flagV = true ↔ x.toInt - y.toInt < -32768 ∨ 32767 < x.toInt - y.toInt)) ∧
      (s.cfg.flagsCmp = .keep → t.flagE = s.flagE ∧ t.flagV = s.flagV) ∧
      SkipsOn c (x - y) (magnitude s.cfg.lcond (x - y) (sub x y).carry (sub x y).ovf) s t ∧
      Frame [] [0, 2] s t ∧ SameMemory s t ∧ SameIo s t) ∧
    (∃ (x y : Word) (p q : Byte) (t : State), OperandsRead rd rs s x y ∧
      p = x.extractLsb' 0 8 ∧ q = y.extractLsb' 0 8 ∧ exec (.cb rd rs c) s = .next t ∧
      (s.cfg.flagsCmp = .update →
        (t.flagE = true ↔ (q.toNat ≤ p.toNat ↔ s.cfg.eOnSub = .carry)) ∧
        (t.flagV = true ↔ p.toInt - q.toInt < -128 ∨ 127 < p.toInt - q.toInt)) ∧
      (s.cfg.flagsCmp = .keep → t.flagE = s.flagE ∧ t.flagV = s.flagV) ∧
      SkipsOn c (p - q) (magnitude s.cfg.lcond (p - q) (sub p q).carry (sub p q).ovf) s t ∧
      Frame [] [0, 2] s t ∧ SameMemory s t ∧ SameIo s t)

/-- MV, BSWP, DSWP: Rd becomes Rs, Rs with its bytes exchanged, Rs with its middle digits exchanged;
E and V are unchanged unless STR is Rd (R170, R172, R173). -/
def Obligations.MoveResult : Prop :=
  ∀ (rd rs : Reg) (c : Cond) (s : State),
    (∃ y t, ReadsAs rs s y ∧ exec (.mv rd rs c) s = .next t ∧ WrittenAs rd y [] s t ∧
      SkipsFreely c y s t ∧ Frame [rd] [] s t ∧ SameMemory s t ∧ SameIo s t) ∧
    (∃ (y v : Word) (t : State), ReadsAs rs s y ∧ exec (.bswp rd rs c) s = .next t ∧
      v.toNat = y.toNat % 256 * 256 + y.toNat / 256 ∧ WrittenAs rd v [] s t ∧
      SkipsFreely c v s t ∧ Frame [rd] [] s t ∧ SameMemory s t ∧ SameIo s t) ∧
    (∃ (y v : Word) (t : State), ReadsAs rs s y ∧ exec (.dswp rd rs c) s = .next t ∧
      (digit v 0 = digit y 0 ∧ digit v 1 = digit y 2 ∧ digit v 2 = digit y 1 ∧
        digit v 3 = digit y 3) ∧ WrittenAs rd v [] s t ∧
      SkipsFreely c v s t ∧ Frame [rd] [] s t ∧ SameMemory s t ∧ SameIo s t)

/-- MV Rn,Rn without a condition changes nothing but IC; with Rn = STR nothing but IC and the unused
bits of STR (R98). -/
def Obligations.NopIdiom : Prop :=
  ∀ (rn : Reg) (s : State),
    ∃ t, exec (.mv rn rn .never) s = .next t ∧ t.ic = s.ic + 1 ∧
      Frame [] (if rn = .str then unusedBits else []) s t ∧
      SameMemory s t ∧ SameIo s t

/-- MVB: the lower byte of Rd becomes that of Rs, the upper byte is kept or cleared by P_MVB_UPPER,
the condition is judged on the byte (R171). -/
def Obligations.MoveByteResult : Prop :=
  ∀ (rd rs : Reg) (c : Cond) (s : State),
    ∃ (x y v : Word) (b : Byte) (t : State), OperandsRead rd rs s x y ∧
      exec (.mvb rd rs c) s = .next t ∧ b = y.extractLsb' 0 8 ∧ v.extractLsb' 0 8 = b ∧
      v.extractLsb' 8 8 = (if s.cfg.mvbUpper = .keep then x.extractLsb' 8 8 else 0) ∧
      WrittenAs rd v [] s t ∧ SkipsFreely c b s t ∧
      Frame [rd] [] s t ∧ SameMemory s t ∧ SameIo s t

/-- LAD: Rd becomes LAD's function of the operands, E and V come from the binary addition under
P_FLAGS_LAD, the condition is judged on the value stored (R185; what the function is under each
reading is in LadPatternDigits). With STR as Rd and flags updated R26 leaves the result unspecified:
that only E and V are so, the other bits coming from the value, is the model's reading (log entry 12,
93 U4). Conditions 12 to 15 after the addition are R96's own generalisation (log entry 24, 93 U10). That the
operands of LAD STR,STR are one value, also where each read of STR has free bits (R24), is the model's
reading (log entry 11). -/
def Obligations.LadResult : Prop :=
  ∀ (rd rs : Reg) (c : Cond) (s : State),
    ∃ (x y v : Word) (t : State), OperandsRead rd rs s x y ∧ exec (.lad rd rs c) s = .next t ∧
      v = ladResult s.cfg.ladFn x y ∧
      WrittenAs rd v (if s.cfg.flagsLad = .update then [0, 2] else []) s t ∧
      (rd ≠ .str → s.cfg.flagsLad = .update →
        (t.flagE = true ↔ 65536 ≤ x.toNat + y.toNat) ∧
        (t.flagV = true ↔ x.toInt + y.toInt < -32768 ∨ 32767 < x.toInt + y.toInt)) ∧
      (rd ≠ .str → s.cfg.flagsLad = .keep → t.flagE = s.flagE ∧ t.flagV = s.flagV) ∧
      SkipsOn c v (magnitude s.cfg.lcond v (add x y false).carry (add x y false).ovf) s t ∧
      Frame [rd] [0, 2] s t ∧ SameMemory s t ∧ SameIo s t

/-- LAD's pattern: 6 in every digit out of which the binary addition carries and 0 in the others, so
that bit 15 is 0 (R185). The readings of R186: `sum` is the binary sum; `adjusted` is the sum plus the
pattern, modulo 2^16; `patternDecimal` has 6 in every digit whose sum, with the carry counted out of
the digit below, is above 9 (the wrap and this carry are the model's reading, log entry 23). -/
def Obligations.LadPatternDigits : Prop :=
  ∀ x y v w : Word, v = ladResult .pattern x y → w = ladResult .patternDecimal x y →
    (∀ i, i < 4 → digit v i =
      if 16 ^ (i + 1) ≤ x.toNat % 16 ^ (i + 1) + y.toNat % 16 ^ (i + 1) then 6 else 0) ∧
    v.msb = false ∧
    (ladResult .sum x y).toNat = (x.toNat + y.toNat) % 65536 ∧
    (ladResult .adjusted x y).toNat = (x.toNat + y.toNat + v.toNat) % 65536 ∧
    digit w 0 = (if 9 < digit x 0 + digit y 0 then 6 else 0) ∧
    ∀ i, i < 3 → digit w (i + 1) =
      if 9 < digit x (i + 1) + digit y (i + 1) + (if digit w i = 6 then 1 else 0) then 6 else 0

/-- How LAD is meant to be used: with p biased by 0x6666, the binary sum less the bias of the digits
that did not carry is the decimal sum, and the carry out is the decimal carry (R185). -/
def Obligations.DecimalAdditionWithLad : Prop :=
  ∀ p q t k r : Word, (∀ i, i < 4 → digit p i ≤ 9) → (∀ i, i < 4 → digit q i ≤ 9) →
    t = p + 0x6666 → k = ladResult .pattern t q → r = t + q - (0x6666 - k) →
    (∀ i, i < 4 → digit r i ≤ 9) ∧
    digit p 0 + 10 * digit p 1 + 100 * digit p 2 + 1000 * digit p 3 +
        (digit q 0 + 10 * digit q 1 + 100 * digit q 2 + 1000 * digit q 3) =
      digit r 0 + 10 * digit r 1 + 100 * digit r 2 + 1000 * digit r 3 +
        (if 65536 ≤ t.toNat + q.toNat then 10000 else 0)

/-- SL and SR: after EM, E and Rn are shifted one bit as a 17-bit quantity: the bit that leaves goes
to E; V is unchanged (R190, R191, R192). With STR as Rn R26 leaves the result unspecified: that only E
and V are so, the other bits coming from the shifted word (log entry 12, 93 U4), and that STR is read
after EM (log entry 13), is the model's reading. -/
def Obligations.ShiftResult : Prop :=
  ∀ (rn : Reg) (em : Em) (c : Cond) (s u : State), u = applyEm em s →
    (∃ (x v : Word) (out : Bool) (t : State), ReadsAs rn u x ∧ exec (.sl rn em c) s = .next t ∧
      BitVec.ofBool out ++ v = x ++ BitVec.ofBool u.flagE ∧
      WrittenAs rn v [0, 2] s t ∧ (rn ≠ .str → t.flagE = out) ∧ SkipsFreely c v s t ∧
      Frame [rn] [0] s t ∧ SameMemory s t ∧ SameIo s t) ∧
    (∃ (x v : Word) (out : Bool) (t : State), ReadsAs rn u x ∧ exec (.sr rn em c) s = .next t ∧
      v ++ BitVec.ofBool out = BitVec.ofBool u.flagE ++ x ∧
      WrittenAs rn v [0, 2] s t ∧ (rn ≠ .str → t.flagE = out) ∧ SkipsFreely c v s t ∧
      Frame [rn] [0] s t ∧ SameMemory s t ∧ SameIo s t)

/-- SBIT and RBIT: bit I4 of Rn becomes 1 or 0, the whole new register is judged; TBIT: the register
masked to bit I4 is judged and nothing is written (R200, R201, R202; where bit I4 lies, R206, is in
BitNumbering). -/
def Obligations.BitResult : Prop :=
  ∀ (rn : Reg) (i4 : BitVec 4) (c : Cond) (s : State),
    (∃ x v t, ReadsAs rn s x ∧ exec (.sbit rn i4 c) s = .next t ∧
      (∀ k, k < 16 → wordBit s v k = if k = i4.toNat then true else wordBit s x k) ∧
      WrittenAs rn v [] s t ∧ SkipsFreely c v s t ∧
      Frame [rn] [] s t ∧ SameMemory s t ∧ SameIo s t) ∧
    (∃ x v t, ReadsAs rn s x ∧ exec (.rbit rn i4 c) s = .next t ∧
      (∀ k, k < 16 → wordBit s v k = if k = i4.toNat then false else wordBit s x k) ∧
      WrittenAs rn v [] s t ∧ SkipsFreely c v s t ∧
      Frame [rn] [] s t ∧ SameMemory s t ∧ SameIo s t) ∧
    (∃ x v t, ReadsAs rn s x ∧ exec (.tbit rn i4 c) s = .next t ∧
      (∀ k, k < 16 → wordBit s v k = if k = i4.toNat then wordBit s x k else false) ∧
      SkipsFreely c v s t ∧ Frame [] [] s t ∧ SameMemory s t ∧ SameIo s t)

/-- AI and SI: the register plus or minus the zero-extended I4, E and V as A and S under P_FLAGS_IMM
(R203, R204). With STR as Rn and flags updated R26 leaves the result unspecified: that only E and V are
so, the other bits coming from the sum or difference, is the model's reading (log entry 12, 93 U4).
Conditions 12 to 15 after the sum are R96's own generalisation (log entry 24, 93 U10). -/
def Obligations.ImmediateArithmeticResult : Prop :=
  ∀ (rn : Reg) (i4 : BitVec 4) (c : Cond) (s : State) (y : Word), y = i4.zeroExtend 16 →
    (∃ x t, ReadsAs rn s x ∧ exec (.ai rn i4 c) s = .next t ∧
      WrittenAs rn (x + y) (if s.cfg.flagsImm = .update then [0, 2] else []) s t ∧
      (rn ≠ .str → s.cfg.flagsImm = .update →
        (t.flagE = true ↔ 65536 ≤ x.toNat + i4.toNat) ∧
        (t.flagV = true ↔ 32767 < x.toInt + i4.toNat)) ∧
      (rn ≠ .str → s.cfg.flagsImm = .keep → t.flagE = s.flagE ∧ t.flagV = s.flagV) ∧
      SkipsOn c (x + y) (magnitude s.cfg.lcond (x + y) (add x y false).carry (add x y false).ovf) s t ∧
      Frame [rn] [0, 2] s t ∧ SameMemory s t ∧ SameIo s t) ∧
    (∃ x t, ReadsAs rn s x ∧ exec (.si rn i4 c) s = .next t ∧
      WrittenAs rn (x - y) (if s.cfg.flagsImm = .update then [0, 2] else []) s t ∧
      (rn ≠ .str → s.cfg.flagsImm = .update →
        (t.flagE = true ↔ (i4.toNat ≤ x.toNat ↔ s.cfg.eOnSub = .carry)) ∧
        (t.flagV = true ↔ x.toInt - i4.toNat < -32768)) ∧
      (rn ≠ .str → s.cfg.flagsImm = .keep → t.flagE = s.flagE ∧ t.flagV = s.flagV) ∧
      SkipsOn c (x - y) (magnitude s.cfg.lcond (x - y) (sub x y).carry (sub x y).ovf) s t ∧
      Frame [rn] [0, 2] s t ∧ SameMemory s t ∧ SameIo s t)

/-- MVI: the lower byte of Rn becomes I8, the upper byte is cleared, kept or filled with the sign by
P_MVI_UPPER (R205). -/
def Obligations.MoveImmediateResult : Prop :=
  ∀ (rn : Reg) (i8 : Byte) (s : State),
    ∃ (x v : Word) (t : State), ReadsAs rn s x ∧ exec (.mvi rn i8) s = .next t ∧
      v.extractLsb' 0 8 = i8 ∧
      v.extractLsb' 8 8 =
        (match s.cfg.mviUpper with
          | .zero => 0
          | .keep => x.extractLsb' 8 8
          | .sign => if i8.msb then 0xFF else 0) ∧
      WrittenAs rn v [] s t ∧ t.ic = s.ic + 1 ∧
      Frame [rn] [] s t ∧ SameMemory s t ∧ SameIo s t

/-- RD: the register receives the platform's answer (R215, R47); WT: the event is recorded in program
order and nothing is written (R216, R47). That the answers stand in a list of the host's, of which RD
takes the next while there is one, and that a read is recorded too, is the model's choice of form (log
entry 21). -/
def Obligations.IoResult : Prop :=
  ∀ (rn : Reg) (i8 : Byte) (s : State),
    (∃ v t, (∀ a, s.ioAnswers.head? = some a → v = a) ∧ exec (.rd rn i8) s = .next t ∧
      WrittenAs rn v [] s t ∧ t.ioLog = s.ioLog ++ [.read i8 v] ∧
      t.ioAnswers = s.ioAnswers.tail ∧ t.ic = s.ic + 1 ∧ Frame [rn] [] s t ∧ SameMemory s t) ∧
    (∃ x t, ReadsAs rn s x ∧ exec (.wt rn i8) s = .next t ∧
      t.ioLog = s.ioLog ++ [.write i8 x] ∧ t.ioAnswers = s.ioAnswers ∧ t.ic = s.ic + 1 ∧
      Frame [] [] s t ∧ SameMemory s t)

/-- LPSW 0, 1, 2: STR and IC come from the level's old-PSW slot, in the order of P_PSW_ORDER; R0 to R4
and SP are not restored (R217, R237). That LPSW goes on, with an unknown word, where a word of the slot
lies where there is no memory is the model's choice (log entry 7, 93 U9). -/
def Obligations.LpswResult : Prop :=
  ∀ (i2 : BitVec 2) (s : State) (a : Word), i2 ≠ 3 →
    a = (if i2 = 0 then s.cfg.opsw.level0 else if i2 = 1 then s.cfg.opsw.level1
      else s.cfg.opsw.level2) →
    ∃ x y t, LoadsAs a s (if s.cfg.pswOrder = .strFirst then x else y) ∧
      LoadsAs (a + 1) s (if s.cfg.pswOrder = .strFirst then y else x) ∧
      exec (.lpsw i2) s = .next t ∧ WrittenAs .str x [] s t ∧ t.ic = y ∧
      Frame [.str] [] s t ∧ SameMemory s t ∧ SameIo s t

/-- H halts with IC as P_HALT_RESUME says and everything else as it was (R218). LPSW 3 halts so too,
recorded as an undefined instruction: the model's choice among those of 93 U7 (log entry 15). -/
def Obligations.HaltResult : Prop :=
  ∀ (s : State) (a : Word), a = (if s.cfg.haltResume = .next then s.ic + 1 else s.ic) →
    exec .h s = .next { s with ic := a, run := .halted .hInstruction } ∧
    exec (.lpsw 3) s = .next { s with ic := a, run := .halted .undefinedInstruction }

/-- PUSH: the register, read before SP changes, goes to the stack (R219, R221). POP: the register
receives the word popped (R220). That a word pushed to ROM, or where there is no memory, is dropped,
and that a word popped where there is none is an unknown value, is the model's choice (log entry 7, 93
U9). R221 leaves POP SP unspecified: that only SP is so, IC + 1 and
all else kept, is the model's choice (log entry 16, 93 U8). -/
def Obligations.StackResult : Prop :=
  ∀ (rn : Reg) (s : State) (a : Word),
    (Memory.wf s.mem = true → a = pushAddress s →
      ∃ x t, ReadsAs rn s x ∧ exec (.push rn) s = .next t ∧ StoredAt a x s t ∧
        SameMemoryOutside [a] s t ∧ t.sp = pushedSp s ∧ t.ic = s.ic + 1 ∧
        Frame [.sp] [] s t ∧ SameIo s t) ∧
    ∃ v t, LoadsAs (popAddress s) s v ∧ exec (.pop rn) s = .next t ∧
      (rn ≠ .sp → WrittenAs rn v [] s t ∧ t.sp = poppedSp s) ∧ t.ic = s.ic + 1 ∧
      Frame [rn, .sp] [] s t ∧ SameMemory s t ∧ SameIo s t

/-! ### Registers and bits -/

/-- Whatever P_ENCODING is, an instruction a word decodes to names only registers it may name: L and ST
never STR (R13). Under P_ENCODING = other the word of such an instruction is taken as undefined, which
is the model's reading (log entry 4). -/
def Obligations.DecodedRegistersAllowed : Prop :=
  ∀ (e : Encoding) (w : Word) (i : Instr), decodeWord e w = some i →
    i.wellFormed = true ∧ ∀ ea, i ≠ .l .str ea ∧ i ≠ .st .str ea

/-- Where the source's bit n lies: position n under `lsb0`, 15 - n under `msb0`, both in the register an
I4 names a bit of (R206) and in STR (R19): E is bit 0, V bit 2 (R20, R21). That P_BIT_ORDER governs
these and nothing else is the model's reading (log entry 27). -/
def Obligations.BitNumbering : Prop :=
  (∀ i4 : BitVec 4, bitMask .lsb0 i4 = 1#16 <<< i4.toNat ∧ bitMask .msb0 i4 = 1#16 <<< (15 - i4.toNat)) ∧
  ∀ (s : State) (v : Word),
    (s.cfg.bitOrder = .lsb0 →
      (∀ n, n < 16 → s.strBit n = s.str.getLsbD n ∧ wordBit s v n = v.getLsbD n) ∧
      s.flagE = s.str.getLsbD 0 ∧ s.flagV = s.str.getLsbD 2) ∧
    (s.cfg.bitOrder = .msb0 →
      (∀ n, n < 16 → s.strBit n = s.str.getLsbD (15 - n) ∧ wordBit s v n = v.getLsbD (15 - n)) ∧
      s.flagE = s.str.getLsbD 15 ∧ s.flagV = s.str.getLsbD 13)
end

