-- ==== Sys2Proof/Laws/Adder.lean ====
section
/-!
SUPPORT. The adder (00_scope.md section 5.3): result, carry and overflow as arithmetic facts; E after
a subtraction; the halves of a word put together from two bytes.
-/

namespace Sys2Proof.Machine

open Sys2Proof.Config

theorem add_res {w : Nat} (x y : BitVec w) : (add x y false).res = x + y := by
  apply BitVec.eq_of_toNat_eq; simp [add]

theorem add_carry {w : Nat} (x y : BitVec w) :
    (add x y false).carry = true ↔ 2 ^ w ≤ x.toNat + y.toNat := by
  simp [add]

theorem add_ovf_word (x y : Word) :
    (add x y false).ovf = true ↔ x.toInt + y.toInt < -32768 ∨ 32767 < x.toInt + y.toInt := by
  have hx := x.isLt
  have hy := y.isLt
  simp only [add, BitVec.msb_eq_decide, BitVec.toInt_eq_toNat_cond, BitVec.toNat_ofNat,
    Bool.toNat_false]
  by_cases h1 : 2 ^ 15 ≤ x.toNat <;> by_cases h2 : 2 ^ 15 ≤ y.toNat <;>
    by_cases h3 : 2 ^ 15 ≤ (x.toNat + y.toNat + 0) % 2 ^ 16 <;> simp [*] <;> omega

theorem sub_res {w : Nat} (x y : BitVec w) : (sub x y).res = x - y := by
  have hx := x.isLt
  have hy := y.isLt
  apply BitVec.eq_of_toNat_eq
  simp only [sub, add, BitVec.toNat_ofNat, BitVec.toNat_not, Bool.toNat_true, BitVec.toNat_sub]
  congr 1; omega

/-- The carry of a subtraction is "no borrow". -/
theorem sub_carry {w : Nat} (x y : BitVec w) : (sub x y).carry = true ↔ y.toNat ≤ x.toNat := by
  have hx := x.isLt
  have hy := y.isLt
  simp [sub, add]; omega

theorem sub_ovf_word (x y : Word) :
    (sub x y).ovf = true ↔ x.toInt - y.toInt < -32768 ∨ 32767 < x.toInt - y.toInt := by
  have hx := x.isLt
  have hy := y.isLt
  simp only [sub, add, BitVec.msb_eq_decide, BitVec.toInt_eq_toNat_cond, BitVec.toNat_ofNat,
    Bool.toNat_true, BitVec.toNat_not]
  by_cases h1 : 2 ^ 15 ≤ x.toNat <;> by_cases h2 : 2 ^ 15 ≤ 2 ^ 16 - 1 - y.toNat <;>
    by_cases h3 : 2 ^ 15 ≤ (x.toNat + (2 ^ 16 - 1 - y.toNat) + 1) % 2 ^ 16 <;> simp [*] <;> omega

theorem sub_ovf_byte (x y : Byte) :
    (sub x y).ovf = true ↔ x.toInt - y.toInt < -128 ∨ 127 < x.toInt - y.toInt := by
  have hx := x.isLt
  have hy := y.isLt
  simp only [sub, add, BitVec.msb_eq_decide, BitVec.toInt_eq_toNat_cond, BitVec.toNat_ofNat,
    Bool.toNat_true, BitVec.toNat_not]
  by_cases h1 : 2 ^ 7 ≤ x.toNat <;> by_cases h2 : 2 ^ 7 ≤ 2 ^ 8 - 1 - y.toNat <;>
    by_cases h3 : 2 ^ 7 ≤ (x.toNat + (2 ^ 8 - 1 - y.toNat) + 1) % 2 ^ 8 <;> simp [*] <;> omega

theorem eOfSub_iff {p : EOnSub} {c : Bool} {q : Prop} (h : c = true ↔ q) :
    eOfSub p c = true ↔ (q ↔ p = .carry) := by
  rw [← h]; cases p <;> cases c <;> simp [eOfSub]

theorem toNat_append_add {m n : Nat} (a : BitVec m) (b : BitVec n) :
    (a ++ b).toNat = a.toNat * 2 ^ n + b.toNat := by
  rw [BitVec.toNat_append, ← Nat.shiftLeft_add_eq_or_of_lt b.isLt, Nat.shiftLeft_eq]

theorem lowByte_append (a b : Byte) : lowByte (a ++ b) = b := by
  apply BitVec.eq_of_toNat_eq
  have := a.isLt
  have := b.isLt
  simp only [lowByte, BitVec.extractLsb'_toNat, toNat_append_add, Nat.shiftRight_eq_div_pow]
  omega

theorem highByte_append (a b : Byte) : highByte (a ++ b) = a := by
  apply BitVec.eq_of_toNat_eq
  have := a.isLt
  have := b.isLt
  simp only [highByte, BitVec.extractLsb'_toNat, toNat_append_add, Nat.shiftRight_eq_div_pow]
  omega

end Sys2Proof.Machine
end

