-- ==== Sys2Proof/Laws/Bits.lean ====
section
/-!
SUPPORT. The bits of STR (R19 to R25): what `putBit`, `mergeBits` and the masks do to each bit.
-/

namespace Sys2Proof.Machine

open Sys2Proof.Config

theorem bitPosition_lt {o : BitOrder} {n : Nat} (h : n < 16) : bitPosition o n < 16 := by
  cases o
  · exact h
  · simp only [bitPosition]; omega

theorem unusedBits_lt {n : Nat} (h : n ∈ unusedBits) : n < 16 := by
  simp [unusedBits] at h; omega

theorem bitPosition_inj {o : BitOrder} {n k : Nat} (hn : n < 16) (hk : k < 16) :
    bitPosition o n = bitPosition o k ↔ n = k := by
  cases o
  · exact Iff.rfl
  · simp only [bitPosition]; omega

/-- Every bit of a word is one of the source's numbered bits. -/
theorem eq_of_wordBits (o : BitOrder) {v w : Word}
    (h : ∀ n, n < 16 → v.getLsbD (bitPosition o n) = w.getLsbD (bitPosition o n)) : v = w := by
  apply BitVec.eq_of_getLsbD_eq
  intro i hi
  cases o
  · exact h i hi
  · have := h (15 - i) (by omega)
    have e : 15 - (15 - i) = i := by omega
    simpa only [bitPosition, e] using this

theorem getLsbD_oneShift {i j : Nat} (hj : j < 16) : (1#16 <<< i).getLsbD j = decide (j = i) := by
  rw [BitVec.getLsbD_shiftLeft]
  simp only [BitVec.getLsbD_one]
  by_cases h : j = i
  · subst h; simp [hj]
  · simp only [h, decide_false]
    by_cases h2 : j < i
    · simp [h2]
    · have : j - i ≠ 0 := by omega
      simp [this]

theorem getLsbD_putBit {w : Word} {i j : Nat} {b : Bool} (hj : j < 16) :
    (putBit w i b).getLsbD j = if j = i then b else w.getLsbD j := by
  unfold putBit
  cases b <;> simp only [if_true, if_false, Bool.false_eq_true]
  · rw [BitVec.getLsbD_and, BitVec.getLsbD_not, getLsbD_oneShift hj]
    by_cases h : j = i <;> simp [h, hj]
  · rw [BitVec.getLsbD_or, getLsbD_oneShift hj]
    by_cases h : j = i <;> simp [h]

theorem getLsbD_mergeBits {mask old new : Word} {j : Nat} (hj : j < 16) :
    (mergeBits mask old new).getLsbD j =
      if mask.getLsbD j then new.getLsbD j else old.getLsbD j := by
  unfold mergeBits
  rw [BitVec.getLsbD_or, BitVec.getLsbD_and, BitVec.getLsbD_and, BitVec.getLsbD_not]
  cases mask.getLsbD j <;> simp [hj]

theorem unusedMask_bit {o : BitOrder} {n : Nat} (h : n < 16) :
    (unusedMask o).getLsbD (bitPosition o n) = decide (n ∈ unusedBits) := by
  revert n; cases o <;> decide

theorem flagMask_bit {o : BitOrder} {n : Nat} (h : n < 16) :
    (flagMask o).getLsbD (bitPosition o n) = decide (n = 0 ∨ n = 2) := by
  revert n; cases o <;> decide

theorem strBit_setStrBit {s : State} {n k : Nat} {b : Bool} (hn : n < 16) (hk : k < 16) :
    (s.setStrBit n b).strBit k = if k = n then b else s.strBit k := by
  show (putBit s.str (bitPosition s.cfg.bitOrder n) b).getLsbD (bitPosition s.cfg.bitOrder k) = _
  rw [getLsbD_putBit (bitPosition_lt hk)]
  simp only [bitPosition_inj hk hn, State.strBit]

/-- Writing the flags changes E and V alone (R19). -/
theorem strBit_setFlags {s : State} {e v : Bool} {k : Nat} (hk : k < 16) :
    (setFlags e v s).strBit k = if k = 2 then v else if k = 0 then e else s.strBit k := by
  show ((s.setStrBit 0 e).setStrBit 2 v).strBit k = _
  rw [strBit_setStrBit (by omega) hk, strBit_setStrBit (by omega) hk]

/-- Competing writes leave the bits other than E and V as they were (R26, 93 U4). -/
theorem strBit_freeFlags {s : State} {k : Nat} (hk : k < 16) (h0 : k ≠ 0) (h2 : k ≠ 2) :
    (freeFlags s).strBit k = s.strBit k := by
  show (mergeBits _ s.str _).getLsbD (bitPosition s.cfg.bitOrder k) = _
  rw [getLsbD_mergeBits (bitPosition_lt hk), flagMask_bit hk]
  simp [h0, h2, State.strBit]

/-- `BitMask(i4)` has the named bit alone (R206). -/
theorem bitMask_bit {o : BitOrder} {i4 : BitVec 4} {k : Nat} (hk : k < 16) :
    (bitMask o i4).getLsbD (bitPosition o k) = decide (k = i4.toNat) := by
  unfold bitMask
  rw [getLsbD_oneShift (bitPosition_lt hk)]
  simp only [bitPosition_inj hk i4.isLt]

end Sys2Proof.Machine
end

