-- ==== Sys2Proof/Laws/Memory.lean ====
section
/-!
SUPPORT. The laws of memory: every operation keeps the canonical form, a read after a write, and
equal reads mean equal memories.
-/

namespace Sys2Proof.Machine

theorem wfFrom_mono {m : Memory} {a b : Nat} (h : wfFrom b m = true) (hab : a ≤ b) :
    wfFrom a m = true := by
  cases m with
  | nil => rfl
  | cons c rest =>
    obtain ⟨k, v⟩ := c
    simp only [wfFrom, Bool.and_eq_true, decide_eq_true_eq] at h ⊢
    exact ⟨⟨⟨hab.trans h.1.1.1, h.1.1.2⟩, h.1.2⟩, h.2⟩

theorem wfFrom_cons {low k : Nat} {v : Byte} {rest : Memory} :
    wfFrom low ((k, v) :: rest) = true ↔
      low ≤ k ∧ k < memoryKeys ∧ v ≠ unlistedByte ∧ wfFrom (k + 1) rest = true := by
  simp only [wfFrom, Bool.and_eq_true, decide_eq_true_eq, and_assoc]

theorem consCell_wfFrom {low k : Nat} {v : Byte} {rest : Memory} (hlow : low ≤ k)
    (hk : k < memoryKeys) (h : wfFrom (k + 1) rest = true) :
    wfFrom low (consCell k v rest) = true := by
  unfold consCell
  split
  · exact wfFrom_mono h (by omega)
  · exact wfFrom_cons.mpr ⟨hlow, hk, ‹_›, h⟩

/-- Nothing is listed below the first key of a canonical list. -/
theorem readByte_of_lt {m : Memory} {low key : Nat} (h : wfFrom low m = true) (hk : key < low) :
    readByte m key = unlistedByte := by
  induction m generalizing low with
  | nil => rfl
  | cons c rest ih =>
    obtain ⟨k, v⟩ := c
    obtain ⟨h1, -, -, h4⟩ := wfFrom_cons.mp h
    have hne : key ≠ k := by omega
    simpa [readByte, hne] using ih h4 (by omega)

theorem readByte_consCell {m : Memory} {k key : Nat} {v : Byte} (h : wfFrom (k + 1) m = true) :
    readByte (consCell k v m) key = if key = k then v else readByte m key := by
  unfold consCell
  by_cases hv : v = unlistedByte
  · by_cases hk : key = k
    · subst hk; simp [hv, readByte_of_lt h (Nat.lt_succ_self key)]
    · simp [hv, hk]
  · simp [hv, readByte]

theorem writeByte_wfFrom {m : Memory} {low key : Nat} {b : Byte} (h : wfFrom low m = true)
    (hlow : low ≤ key) (hkey : key < memoryKeys) : wfFrom low (writeByte m key b) = true := by
  induction m generalizing low with
  | nil => exact consCell_wfFrom hlow hkey rfl
  | cons c rest ih =>
    obtain ⟨k, v⟩ := c
    obtain ⟨h1, h2, h3, h4⟩ := wfFrom_cons.mp h
    unfold writeByte
    split
    · exact consCell_wfFrom hlow hkey (wfFrom_cons.mpr ⟨by omega, h2, h3, h4⟩)
    · split
      · rename_i hk; subst hk; exact consCell_wfFrom hlow hkey h4
      · exact wfFrom_cons.mpr ⟨h1, h2, h3, ih h4 (by omega)⟩

/-- A byte write changes the byte at its key and no other. -/
theorem readByte_writeByte {m : Memory} {low key : Nat} {b : Byte} (h : wfFrom low m = true)
    (key' : Nat) : readByte (writeByte m key b) key' = if key' = key then b else readByte m key' := by
  induction m generalizing low with
  | nil => exact readByte_consCell rfl
  | cons c rest ih =>
    obtain ⟨k, v⟩ := c
    obtain ⟨h1, h2, h3, h4⟩ := wfFrom_cons.mp h
    unfold writeByte
    split
    · exact readByte_consCell (wfFrom_cons.mpr ⟨by omega, h2, h3, h4⟩)
    · split
      · rename_i hk; subst hk
        rw [readByte_consCell h4]
        by_cases hk : key' = key <;> simp [readByte, hk]
      · rename_i hlt hne
        by_cases hk : key' = k
        · subst hk; simp [readByte, Ne.symm hne]
        · simp [readByte, hk, ih h4]

theorem wordKey_lt (a : Word) : wordKey a + 1 < memoryKeys := by
  have := a.isLt
  simp only [wordKey, memoryKeys]; omega

theorem wordKey_inj {a b : Word} : wordKey a = wordKey b ↔ a = b := by
  simp only [wordKey]
  constructor
  · intro h; exact BitVec.eq_of_toNat_eq (by omega)
  · rintro rfl; rfl

theorem writeWord_wf {m : Memory} {a v : Word} (h : Memory.wf m = true) :
    Memory.wf (writeWord m a v) = true :=
  writeByte_wfFrom (writeByte_wfFrom h (Nat.zero_le _) (by have := wordKey_lt a; omega))
    (Nat.zero_le _) (wordKey_lt a)

/-- A word write changes the two bytes of its word and no other. -/
theorem readByte_writeWord {m : Memory} {a v : Word} (h : Memory.wf m = true) (k : Nat) :
    readByte (writeWord m a v) k =
      if k = wordKey a + 1 then v.extractLsb' 8 8
      else if k = wordKey a then v.extractLsb' 0 8 else readByte m k := by
  unfold writeWord
  have h1 : wfFrom 0 (writeByte m (wordKey a) (v.extractLsb' 0 8)) = true :=
    writeByte_wfFrom h (Nat.zero_le _) (by have := wordKey_lt a; omega)
  rw [readByte_writeByte h1, readByte_writeByte (low := 0) h]

theorem halves_append (v : Word) : v.extractLsb' 8 8 ++ v.extractLsb' 0 8 = v := by
  apply BitVec.eq_of_getLsbD_eq
  intro i hi
  simp only [BitVec.getLsbD_append, BitVec.getLsbD_extractLsb']
  by_cases h : i < 8
  · simp [h]
  · have h2 : i - 8 < 8 := by omega
    have h3 : 8 + (i - 8) = i := by omega
    simp [h, h2, h3]

/-- A word read after a word write. -/
theorem readWord_writeWord {m : Memory} {a v : Word} (h : Memory.wf m = true) (b : Word) :
    readWord (writeWord m a v) b = if b = a then v else readWord m b := by
  unfold readWord
  rw [readByte_writeWord h, readByte_writeWord h]
  by_cases hb : b = a
  · subst hb; simp [halves_append]
  · have hk : wordKey b ≠ wordKey a := fun e => hb (wordKey_inj.mp e)
    have h1 : wordKey b + 1 ≠ wordKey a := by simp only [wordKey]; omega
    have h2 : wordKey b ≠ wordKey a + 1 := by simp only [wordKey]; omega
    simp [hb, hk, h1, h2]

theorem wfFrom_ext {m n : Memory} {low : Nat} (hm : wfFrom low m = true) (hn : wfFrom low n = true)
    (h : ∀ k, readByte m k = readByte n k) : m = n := by
  induction m generalizing n low with
  | nil =>
    cases n with
    | nil => rfl
    | cons c rest =>
      obtain ⟨k, v⟩ := c
      have := h k
      simp only [readByte, if_true] at this
      exact absurd this.symm (wfFrom_cons.mp hn).2.2.1
  | cons c rest ih =>
    obtain ⟨k, v⟩ := c
    obtain ⟨h1, h2, h3, h4⟩ := wfFrom_cons.mp hm
    cases n with
    | nil =>
      have := h k
      simp only [readByte, if_true] at this
      exact absurd this h3
    | cons c' rest' =>
      obtain ⟨k', v'⟩ := c'
      obtain ⟨g1, g2, g3, g4⟩ := wfFrom_cons.mp hn
      have hk : k = k' := by
        by_contra hne
        rcases Nat.lt_or_gt_of_ne hne with hlt | hlt
        · have e := h k
          have hz : readByte rest' k = unlistedByte := readByte_of_lt g4 (by omega)
          simp only [readByte, if_true, if_neg hne, hz] at e
          exact h3 e
        · have e := h k'
          have hz : readByte rest k' = unlistedByte := readByte_of_lt h4 (by omega)
          simp only [readByte, if_true, if_neg (Ne.symm hne), hz] at e
          exact g3 e.symm
      subst hk
      have hv : v = v' := by simpa [readByte] using h k
      subst hv
      have hrest : rest = rest' := ih h4 g4 fun j => by
        by_cases hj : j = k
        · rw [hj, readByte_of_lt h4 (by omega), readByte_of_lt g4 (by omega)]
        · have := h j
          simpa [readByte, hj] using this
      rw [hrest]

/-- Canonical memories that read alike are equal. -/
theorem memory_ext {m n : Memory} (hm : Memory.wf m = true) (hn : Memory.wf n = true)
    (h : ∀ k, readByte m k = readByte n k) : m = n := wfFrom_ext hm hn h

end Sys2Proof.Machine
end

