-- ==== Sys2Proof/Laws/State.lean ====
section
/-!
SUPPORT. One lemma for each field of State after each named update, so that no proof unfolds a record
update.
-/

namespace Sys2Proof.Machine

-- one theorem after another: many at once need more threads than the memory limit allows
set_option Elab.async false

/-! ### What a register holds -/

@[simp] theorem reg_r0 (s : State) : s.reg .r0 = s.r0 := rfl
@[simp] theorem reg_r1 (s : State) : s.reg .r1 = s.r1 := rfl
@[simp] theorem reg_r2 (s : State) : s.reg .r2 = s.r2 := rfl
@[simp] theorem reg_r3 (s : State) : s.reg .r3 = s.r3 := rfl
@[simp] theorem reg_r4 (s : State) : s.reg .r4 = s.r4 := rfl
@[simp] theorem reg_sp (s : State) : s.reg .sp = s.sp := rfl
@[simp] theorem reg_str (s : State) : s.reg .str = s.str := rfl
@[simp] theorem flagE_eq (s : State) : s.flagE = s.strBit 0 := rfl
@[simp] theorem flagV_eq (s : State) : s.flagV = s.strBit 2 := rfl

/-! ### bump -/

@[simp] theorem bump_r0 (s : State) :
    s.bump.r0 = s.r0 := rfl
@[simp] theorem bump_r1 (s : State) :
    s.bump.r1 = s.r1 := rfl
@[simp] theorem bump_r2 (s : State) :
    s.bump.r2 = s.r2 := rfl
@[simp] theorem bump_r3 (s : State) :
    s.bump.r3 = s.r3 := rfl
@[simp] theorem bump_r4 (s : State) :
    s.bump.r4 = s.r4 := rfl
@[simp] theorem bump_sp (s : State) :
    s.bump.sp = s.sp := rfl
@[simp] theorem bump_str (s : State) :
    s.bump.str = s.str := rfl
@[simp] theorem bump_ic (s : State) :
    s.bump.ic = s.ic := rfl
@[simp] theorem bump_run (s : State) :
    s.bump.run = s.run := rfl
@[simp] theorem bump_mem (s : State) :
    s.bump.mem = s.mem := rfl
@[simp] theorem bump_map (s : State) :
    s.bump.map = s.map := rfl
@[simp] theorem bump_pins (s : State) :
    s.bump.pins = s.pins := rfl
@[simp] theorem bump_ioLog (s : State) :
    s.bump.ioLog = s.ioLog := rfl
@[simp] theorem bump_cfg (s : State) :
    s.bump.cfg = s.cfg := rfl
@[simp] theorem bump_draws (s : State) :
    s.bump.draws = s.draws + 1 := rfl
@[simp] theorem bump_schedule (s : State) :
    s.bump.schedule = s.schedule := rfl
@[simp] theorem bump_ioAnswers (s : State) :
    s.bump.ioAnswers = s.ioAnswers := rfl

/-! ### setIc -/

@[simp] theorem setIc_r0 (s : State) (a : Word) :
    (s.setIc a).r0 = s.r0 := rfl
@[simp] theorem setIc_r1 (s : State) (a : Word) :
    (s.setIc a).r1 = s.r1 := rfl
@[simp] theorem setIc_r2 (s : State) (a : Word) :
    (s.setIc a).r2 = s.r2 := rfl
@[simp] theorem setIc_r3 (s : State) (a : Word) :
    (s.setIc a).r3 = s.r3 := rfl
@[simp] theorem setIc_r4 (s : State) (a : Word) :
    (s.setIc a).r4 = s.r4 := rfl
@[simp] theorem setIc_sp (s : State) (a : Word) :
    (s.setIc a).sp = s.sp := rfl
@[simp] theorem setIc_str (s : State) (a : Word) :
    (s.setIc a).str = s.str := rfl
@[simp] theorem setIc_ic (s : State) (a : Word) :
    (s.setIc a).ic = a := rfl
@[simp] theorem setIc_run (s : State) (a : Word) :
    (s.setIc a).run = s.run := rfl
@[simp] theorem setIc_mem (s : State) (a : Word) :
    (s.setIc a).mem = s.mem := rfl
@[simp] theorem setIc_map (s : State) (a : Word) :
    (s.setIc a).map = s.map := rfl
@[simp] theorem setIc_pins (s : State) (a : Word) :
    (s.setIc a).pins = s.pins := rfl
@[simp] theorem setIc_ioLog (s : State) (a : Word) :
    (s.setIc a).ioLog = s.ioLog := rfl
@[simp] theorem setIc_cfg (s : State) (a : Word) :
    (s.setIc a).cfg = s.cfg := rfl
@[simp] theorem setIc_draws (s : State) (a : Word) :
    (s.setIc a).draws = s.draws := rfl
@[simp] theorem setIc_schedule (s : State) (a : Word) :
    (s.setIc a).schedule = s.schedule := rfl
@[simp] theorem setIc_ioAnswers (s : State) (a : Word) :
    (s.setIc a).ioAnswers = s.ioAnswers := rfl

/-! ### advance -/

@[simp] theorem advance_r0 (skip : Bool) (s : State) :
    (advance skip s).r0 = s.r0 := rfl
@[simp] theorem advance_r1 (skip : Bool) (s : State) :
    (advance skip s).r1 = s.r1 := rfl
@[simp] theorem advance_r2 (skip : Bool) (s : State) :
    (advance skip s).r2 = s.r2 := rfl
@[simp] theorem advance_r3 (skip : Bool) (s : State) :
    (advance skip s).r3 = s.r3 := rfl
@[simp] theorem advance_r4 (skip : Bool) (s : State) :
    (advance skip s).r4 = s.r4 := rfl
@[simp] theorem advance_sp (skip : Bool) (s : State) :
    (advance skip s).sp = s.sp := rfl
@[simp] theorem advance_str (skip : Bool) (s : State) :
    (advance skip s).str = s.str := rfl
@[simp] theorem advance_ic (skip : Bool) (s : State) :
    (advance skip s).ic = s.ic + if skip then 2 else 1 := rfl
@[simp] theorem advance_run (skip : Bool) (s : State) :
    (advance skip s).run = s.run := rfl
@[simp] theorem advance_mem (skip : Bool) (s : State) :
    (advance skip s).mem = s.mem := rfl
@[simp] theorem advance_map (skip : Bool) (s : State) :
    (advance skip s).map = s.map := rfl
@[simp] theorem advance_pins (skip : Bool) (s : State) :
    (advance skip s).pins = s.pins := rfl
@[simp] theorem advance_ioLog (skip : Bool) (s : State) :
    (advance skip s).ioLog = s.ioLog := rfl
@[simp] theorem advance_cfg (skip : Bool) (s : State) :
    (advance skip s).cfg = s.cfg := rfl
@[simp] theorem advance_draws (skip : Bool) (s : State) :
    (advance skip s).draws = s.draws := rfl
@[simp] theorem advance_schedule (skip : Bool) (s : State) :
    (advance skip s).schedule = s.schedule := rfl
@[simp] theorem advance_ioAnswers (skip : Bool) (s : State) :
    (advance skip s).ioAnswers = s.ioAnswers := rfl

/-! ### setStrBit -/

@[simp] theorem setStrBit_r0 (s : State) (n : Nat) (b : Bool) :
    (s.setStrBit n b).r0 = s.r0 := rfl
@[simp] theorem setStrBit_r1 (s : State) (n : Nat) (b : Bool) :
    (s.setStrBit n b).r1 = s.r1 := rfl
@[simp] theorem setStrBit_r2 (s : State) (n : Nat) (b : Bool) :
    (s.setStrBit n b).r2 = s.r2 := rfl
@[simp] theorem setStrBit_r3 (s : State) (n : Nat) (b : Bool) :
    (s.setStrBit n b).r3 = s.r3 := rfl
@[simp] theorem setStrBit_r4 (s : State) (n : Nat) (b : Bool) :
    (s.setStrBit n b).r4 = s.r4 := rfl
@[simp] theorem setStrBit_sp (s : State) (n : Nat) (b : Bool) :
    (s.setStrBit n b).sp = s.sp := rfl
@[simp] theorem setStrBit_str (s : State) (n : Nat) (b : Bool) :
    (s.setStrBit n b).str = putBit s.str (bitPosition s.cfg.bitOrder n) b := rfl
@[simp] theorem setStrBit_ic (s : State) (n : Nat) (b : Bool) :
    (s.setStrBit n b).ic = s.ic := rfl
@[simp] theorem setStrBit_run (s : State) (n : Nat) (b : Bool) :
    (s.setStrBit n b).run = s.run := rfl
@[simp] theorem setStrBit_mem (s : State) (n : Nat) (b : Bool) :
    (s.setStrBit n b).mem = s.mem := rfl
@[simp] theorem setStrBit_map (s : State) (n : Nat) (b : Bool) :
    (s.setStrBit n b).map = s.map := rfl
@[simp] theorem setStrBit_pins (s : State) (n : Nat) (b : Bool) :
    (s.setStrBit n b).pins = s.pins := rfl
@[simp] theorem setStrBit_ioLog (s : State) (n : Nat) (b : Bool) :
    (s.setStrBit n b).ioLog = s.ioLog := rfl
@[simp] theorem setStrBit_cfg (s : State) (n : Nat) (b : Bool) :
    (s.setStrBit n b).cfg = s.cfg := rfl
@[simp] theorem setStrBit_draws (s : State) (n : Nat) (b : Bool) :
    (s.setStrBit n b).draws = s.draws := rfl
@[simp] theorem setStrBit_schedule (s : State) (n : Nat) (b : Bool) :
    (s.setStrBit n b).schedule = s.schedule := rfl
@[simp] theorem setStrBit_ioAnswers (s : State) (n : Nat) (b : Bool) :
    (s.setStrBit n b).ioAnswers = s.ioAnswers := rfl

/-! ### setFlags -/

@[simp] theorem setFlags_r0 (e v : Bool) (s : State) :
    (setFlags e v s).r0 = s.r0 := rfl
@[simp] theorem setFlags_r1 (e v : Bool) (s : State) :
    (setFlags e v s).r1 = s.r1 := rfl
@[simp] theorem setFlags_r2 (e v : Bool) (s : State) :
    (setFlags e v s).r2 = s.r2 := rfl
@[simp] theorem setFlags_r3 (e v : Bool) (s : State) :
    (setFlags e v s).r3 = s.r3 := rfl
@[simp] theorem setFlags_r4 (e v : Bool) (s : State) :
    (setFlags e v s).r4 = s.r4 := rfl
@[simp] theorem setFlags_sp (e v : Bool) (s : State) :
    (setFlags e v s).sp = s.sp := rfl
@[simp] theorem setFlags_str (e v : Bool) (s : State) :
    (setFlags e v s).str = putBit (putBit s.str (bitPosition s.cfg.bitOrder 0) e) (bitPosition s.cfg.bitOrder 2) v := rfl
@[simp] theorem setFlags_ic (e v : Bool) (s : State) :
    (setFlags e v s).ic = s.ic := rfl
@[simp] theorem setFlags_run (e v : Bool) (s : State) :
    (setFlags e v s).run = s.run := rfl
@[simp] theorem setFlags_mem (e v : Bool) (s : State) :
    (setFlags e v s).mem = s.mem := rfl
@[simp] theorem setFlags_map (e v : Bool) (s : State) :
    (setFlags e v s).map = s.map := rfl
@[simp] theorem setFlags_pins (e v : Bool) (s : State) :
    (setFlags e v s).pins = s.pins := rfl
@[simp] theorem setFlags_ioLog (e v : Bool) (s : State) :
    (setFlags e v s).ioLog = s.ioLog := rfl
@[simp] theorem setFlags_cfg (e v : Bool) (s : State) :
    (setFlags e v s).cfg = s.cfg := rfl
@[simp] theorem setFlags_draws (e v : Bool) (s : State) :
    (setFlags e v s).draws = s.draws := rfl
@[simp] theorem setFlags_schedule (e v : Bool) (s : State) :
    (setFlags e v s).schedule = s.schedule := rfl
@[simp] theorem setFlags_ioAnswers (e v : Bool) (s : State) :
    (setFlags e v s).ioAnswers = s.ioAnswers := rfl

/-! ### freeFlags -/

@[simp] theorem freeFlags_r0 (s : State) :
    (freeFlags s).r0 = s.r0 := rfl
@[simp] theorem freeFlags_r1 (s : State) :
    (freeFlags s).r1 = s.r1 := rfl
@[simp] theorem freeFlags_r2 (s : State) :
    (freeFlags s).r2 = s.r2 := rfl
@[simp] theorem freeFlags_r3 (s : State) :
    (freeFlags s).r3 = s.r3 := rfl
@[simp] theorem freeFlags_r4 (s : State) :
    (freeFlags s).r4 = s.r4 := rfl
@[simp] theorem freeFlags_sp (s : State) :
    (freeFlags s).sp = s.sp := rfl
@[simp] theorem freeFlags_str (s : State) :
    (freeFlags s).str = mergeBits (flagMask s.cfg.bitOrder) s.str (Config.freeWord s.draws) := rfl
@[simp] theorem freeFlags_ic (s : State) :
    (freeFlags s).ic = s.ic := rfl
@[simp] theorem freeFlags_run (s : State) :
    (freeFlags s).run = s.run := rfl
@[simp] theorem freeFlags_mem (s : State) :
    (freeFlags s).mem = s.mem := rfl
@[simp] theorem freeFlags_map (s : State) :
    (freeFlags s).map = s.map := rfl
@[simp] theorem freeFlags_pins (s : State) :
    (freeFlags s).pins = s.pins := rfl
@[simp] theorem freeFlags_ioLog (s : State) :
    (freeFlags s).ioLog = s.ioLog := rfl
@[simp] theorem freeFlags_cfg (s : State) :
    (freeFlags s).cfg = s.cfg := rfl
@[simp] theorem freeFlags_draws (s : State) :
    (freeFlags s).draws = s.draws + 1 := rfl
@[simp] theorem freeFlags_schedule (s : State) :
    (freeFlags s).schedule = s.schedule := rfl
@[simp] theorem freeFlags_ioAnswers (s : State) :
    (freeFlags s).ioAnswers = s.ioAnswers := rfl

/-! ### ioWrite -/

@[simp] theorem ioWrite_r0 (port : Byte) (v : Word) (s : State) :
    (ioWrite port v s).r0 = s.r0 := rfl
@[simp] theorem ioWrite_r1 (port : Byte) (v : Word) (s : State) :
    (ioWrite port v s).r1 = s.r1 := rfl
@[simp] theorem ioWrite_r2 (port : Byte) (v : Word) (s : State) :
    (ioWrite port v s).r2 = s.r2 := rfl
@[simp] theorem ioWrite_r3 (port : Byte) (v : Word) (s : State) :
    (ioWrite port v s).r3 = s.r3 := rfl
@[simp] theorem ioWrite_r4 (port : Byte) (v : Word) (s : State) :
    (ioWrite port v s).r4 = s.r4 := rfl
@[simp] theorem ioWrite_sp (port : Byte) (v : Word) (s : State) :
    (ioWrite port v s).sp = s.sp := rfl
@[simp] theorem ioWrite_str (port : Byte) (v : Word) (s : State) :
    (ioWrite port v s).str = s.str := rfl
@[simp] theorem ioWrite_ic (port : Byte) (v : Word) (s : State) :
    (ioWrite port v s).ic = s.ic := rfl
@[simp] theorem ioWrite_run (port : Byte) (v : Word) (s : State) :
    (ioWrite port v s).run = s.run := rfl
@[simp] theorem ioWrite_mem (port : Byte) (v : Word) (s : State) :
    (ioWrite port v s).mem = s.mem := rfl
@[simp] theorem ioWrite_map (port : Byte) (v : Word) (s : State) :
    (ioWrite port v s).map = s.map := rfl
@[simp] theorem ioWrite_pins (port : Byte) (v : Word) (s : State) :
    (ioWrite port v s).pins = s.pins := rfl
@[simp] theorem ioWrite_ioLog (port : Byte) (v : Word) (s : State) :
    (ioWrite port v s).ioLog = s.ioLog ++ [.write port v] := rfl
@[simp] theorem ioWrite_cfg (port : Byte) (v : Word) (s : State) :
    (ioWrite port v s).cfg = s.cfg := rfl
@[simp] theorem ioWrite_draws (port : Byte) (v : Word) (s : State) :
    (ioWrite port v s).draws = s.draws := rfl
@[simp] theorem ioWrite_schedule (port : Byte) (v : Word) (s : State) :
    (ioWrite port v s).schedule = s.schedule := rfl
@[simp] theorem ioWrite_ioAnswers (port : Byte) (v : Word) (s : State) :
    (ioWrite port v s).ioAnswers = s.ioAnswers := rfl

/-! ### raiseHalt -/

@[simp] theorem raiseHalt_r0 (cause : HaltCause) (s : State) :
    (raiseHalt cause s).r0 = s.r0 := rfl
@[simp] theorem raiseHalt_r1 (cause : HaltCause) (s : State) :
    (raiseHalt cause s).r1 = s.r1 := rfl
@[simp] theorem raiseHalt_r2 (cause : HaltCause) (s : State) :
    (raiseHalt cause s).r2 = s.r2 := rfl
@[simp] theorem raiseHalt_r3 (cause : HaltCause) (s : State) :
    (raiseHalt cause s).r3 = s.r3 := rfl
@[simp] theorem raiseHalt_r4 (cause : HaltCause) (s : State) :
    (raiseHalt cause s).r4 = s.r4 := rfl
@[simp] theorem raiseHalt_sp (cause : HaltCause) (s : State) :
    (raiseHalt cause s).sp = s.sp := rfl
@[simp] theorem raiseHalt_str (cause : HaltCause) (s : State) :
    (raiseHalt cause s).str = s.str := rfl
@[simp] theorem raiseHalt_ic (cause : HaltCause) (s : State) :
    (raiseHalt cause s).ic = (match s.cfg.haltResume with
      | .next => s.ic + 1
      | .same => s.ic) := rfl
@[simp] theorem raiseHalt_run (cause : HaltCause) (s : State) :
    (raiseHalt cause s).run = .halted cause := rfl
@[simp] theorem raiseHalt_mem (cause : HaltCause) (s : State) :
    (raiseHalt cause s).mem = s.mem := rfl
@[simp] theorem raiseHalt_map (cause : HaltCause) (s : State) :
    (raiseHalt cause s).map = s.map := rfl
@[simp] theorem raiseHalt_pins (cause : HaltCause) (s : State) :
    (raiseHalt cause s).pins = s.pins := rfl
@[simp] theorem raiseHalt_ioLog (cause : HaltCause) (s : State) :
    (raiseHalt cause s).ioLog = s.ioLog := rfl
@[simp] theorem raiseHalt_cfg (cause : HaltCause) (s : State) :
    (raiseHalt cause s).cfg = s.cfg := rfl
@[simp] theorem raiseHalt_draws (cause : HaltCause) (s : State) :
    (raiseHalt cause s).draws = s.draws := rfl
@[simp] theorem raiseHalt_schedule (cause : HaltCause) (s : State) :
    (raiseHalt cause s).schedule = s.schedule := rfl
@[simp] theorem raiseHalt_ioAnswers (cause : HaltCause) (s : State) :
    (raiseHalt cause s).ioAnswers = s.ioAnswers := rfl

/-! ### leaveHalt -/

@[simp] theorem leaveHalt_r0 (s : State) :
    (leaveHalt s).r0 = s.r0 := rfl
@[simp] theorem leaveHalt_r1 (s : State) :
    (leaveHalt s).r1 = s.r1 := rfl
@[simp] theorem leaveHalt_r2 (s : State) :
    (leaveHalt s).r2 = s.r2 := rfl
@[simp] theorem leaveHalt_r3 (s : State) :
    (leaveHalt s).r3 = s.r3 := rfl
@[simp] theorem leaveHalt_r4 (s : State) :
    (leaveHalt s).r4 = s.r4 := rfl
@[simp] theorem leaveHalt_sp (s : State) :
    (leaveHalt s).sp = s.sp := rfl
@[simp] theorem leaveHalt_str (s : State) :
    (leaveHalt s).str = s.str := rfl
@[simp] theorem leaveHalt_ic (s : State) :
    (leaveHalt s).ic = s.ic := rfl
@[simp] theorem leaveHalt_run (s : State) :
    (leaveHalt s).run = .running := rfl
@[simp] theorem leaveHalt_mem (s : State) :
    (leaveHalt s).mem = s.mem := rfl
@[simp] theorem leaveHalt_map (s : State) :
    (leaveHalt s).map = s.map := rfl
@[simp] theorem leaveHalt_pins (s : State) :
    (leaveHalt s).pins = s.pins := rfl
@[simp] theorem leaveHalt_ioLog (s : State) :
    (leaveHalt s).ioLog = s.ioLog := rfl
@[simp] theorem leaveHalt_cfg (s : State) :
    (leaveHalt s).cfg = s.cfg := rfl
@[simp] theorem leaveHalt_draws (s : State) :
    (leaveHalt s).draws = s.draws := rfl
@[simp] theorem leaveHalt_schedule (s : State) :
    (leaveHalt s).schedule = s.schedule := rfl
@[simp] theorem leaveHalt_ioAnswers (s : State) :
    (leaveHalt s).ioAnswers = s.ioAnswers := rfl

end Sys2Proof.Machine
end

