-- ==== Sys2Proof/Laws/Ops.lean ====
section
/-!
SUPPORT. For each shared operation, once, everything it can do. A reading operation changes nothing
but the count of drawn values; its value is one the spec allows (`LoadsAs`, `ReadsAs`, `OperandsRead`,
`Addresses`). A writing operation changes its destination and nothing else.
-/

namespace Sys2Proof.Machine

open Sys2Proof.Config

/-! ### Reading memory -/

theorem memRead_present {a : Word} {s : State} (h : kindAt s.map a ≠ .absent) :
    memRead a s = { value := readWord s.mem a, after := s } := by
  unfold memRead
  cases hk : kindAt s.map a <;> simp_all

theorem memRead_absent {a : Word} {s : State} (h : kindAt s.map a = .absent) :
    memRead a s = drawWord s := by
  unfold memRead; rw [h]

theorem memRead_after (a : Word) (s : State) :
    ∃ n, (memRead a s).after = { s with draws := n } := by
  by_cases h : kindAt s.map a = .absent
  · exact ⟨s.draws + 1, by rw [memRead_absent h]; rfl⟩
  · exact ⟨s.draws, by rw [memRead_present h]⟩

theorem memRead_loadsAs (a : Word) (s : State) : LoadsAs a s (memRead a s).value := by
  intro h; rw [memRead_present h]

/-! ### Writing memory -/

theorem memWrite_ram {a v : Word} {s : State} (h : kindAt s.map a = .ram) :
    memWrite a v s = { s with mem := writeWord s.mem a v } := by
  unfold memWrite; rw [h]

theorem memWrite_dropped {a v : Word} {s : State} (h : kindAt s.map a ≠ .ram) :
    memWrite a v s = s := by
  unfold memWrite
  cases hk : kindAt s.map a <;> simp_all

/-- A memory write changes the memory alone, to a canonical one in which the stored word is there or
dropped and every other byte reads as before. -/
theorem memWrite_spec (a v : Word) {s : State} (hw : Memory.wf s.mem = true) :
    ∃ m, memWrite a v s = { s with mem := m } ∧ Memory.wf m = true ∧
      readWord m a = (if kindAt s.map a = .ram then v else readWord s.mem a) ∧
      ∀ k, k ≠ wordKey a → k ≠ wordKey a + 1 → readByte m k = readByte s.mem k := by
  by_cases h : kindAt s.map a = .ram
  · refine ⟨_, memWrite_ram h, writeWord_wf hw, ?_, ?_⟩
    · simp [h, readWord_writeWord hw]
    · intro k h1 h2; rw [readByte_writeWord hw]; simp [h1, h2]
  · exact ⟨s.mem, by rw [memWrite_dropped h], hw, by simp [h], fun _ _ _ => rfl⟩

theorem memWrite_after (a v : Word) (s : State) :
    ∃ m, memWrite a v s = { s with mem := m } ∧ (Memory.wf s.mem = true → Memory.wf m = true) := by
  by_cases h : kindAt s.map a = .ram
  · exact ⟨_, memWrite_ram h, writeWord_wf⟩
  · exact ⟨s.mem, by rw [memWrite_dropped h], id⟩

/-! ### STR and the registers -/

theorem readStr_after (s : State) : ∃ n, (readStr s).after = { s with draws := n } := by
  unfold readStr
  cases s.cfg.strUnused
  · exact ⟨s.draws + 1, rfl⟩
  · exact ⟨s.draws, rfl⟩
  · exact ⟨s.draws, rfl⟩

theorem readStr_readsAs (s : State) : ReadsAs .str s (readStr s).value := by
  unfold readStr
  cases hu : s.cfg.strUnused
  · refine ⟨?_, by simp [hu], by simp [hu]⟩
    intro n hn hx
    show (mergeBits _ s.str _).getLsbD _ = _
    rw [getLsbD_mergeBits (bitPosition_lt hn), unusedMask_bit hn]
    simp [hx, State.strBit]
  · refine ⟨?_, ?_, by simp [hu]⟩
    · intro n hn hx
      show (s.str &&& ~~~_).getLsbD _ = _
      rw [BitVec.getLsbD_and, BitVec.getLsbD_not, unusedMask_bit hn]
      simp [hx, State.strBit, bitPosition_lt hn]
    · intro _ n hx
      have hn := unusedBits_lt hx
      show (s.str &&& ~~~_).getLsbD _ = _
      rw [BitVec.getLsbD_and, BitVec.getLsbD_not, unusedMask_bit hn]
      simp [hx, bitPosition_lt hn]
  · exact ⟨fun _ _ _ => rfl, by simp [hu], fun _ _ _ => rfl⟩

theorem readReg_after (r : Reg) (s : State) : ∃ n, (readReg r s).after = { s with draws := n } := by
  cases r
  case str => exact readStr_after s
  all_goals exact ⟨s.draws, rfl⟩

theorem readReg_readsAs (r : Reg) (s : State) : ReadsAs r s (readReg r s).value := by
  cases r
  case str => exact readStr_readsAs s
  all_goals exact rfl

theorem readReg_ne_str {r : Reg} (h : r ≠ .str) (s : State) :
    readReg r s = { value := s.reg r, after := s } := by
  cases r <;> first | rfl | exact absurd rfl h

theorem readsAs_draws {r : Reg} {s : State} {n : Nat} {v : Word} :
    ReadsAs r { s with draws := n } v ↔ ReadsAs r s v := by
  cases r <;> exact Iff.rfl

theorem readPair_after (rd rs : Reg) (s : State) :
    ∃ n, (readPair rd rs s).after = { s with draws := n } := by
  unfold readPair
  obtain ⟨n, hn⟩ := readReg_after rd s
  by_cases h : rd = rs
  · exact ⟨n, by simp [h] at hn ⊢; exact hn⟩
  · obtain ⟨k, hk⟩ := readReg_after rs (readReg rd s).after
    exact ⟨k, by simp only [if_neg h]; rw [hk, hn]⟩

theorem readPair_operands (rd rs : Reg) (s : State) :
    OperandsRead rd rs s (readPair rd rs s).dst (readPair rd rs s).src := by
  unfold readPair
  by_cases h : rd = rs
  · subst h
    simpa [OperandsRead] using readReg_readsAs rd s
  · obtain ⟨n, hn⟩ := readReg_after rd s
    simp only [if_neg h]
    refine ⟨readReg_readsAs rd s, ?_, fun e => absurd e h⟩
    have := readReg_readsAs rs (readReg rd s).after
    rw [hn] at this ⊢
    exact readsAs_draws.mp this

theorem strBit_writeStr (v : Word) (s : State) {n : Nat} (hn : n < 16) :
    (writeStr v s).strBit n =
      if n ∈ unusedBits ∧ s.cfg.strUnused ≠ .storage then s.strBit n else wordBit s v n := by
  unfold writeStr
  cases hu : s.cfg.strUnused <;>
    first
    | (simp only [State.strBit, wordBit]; rw [getLsbD_mergeBits (bitPosition_lt hn), unusedMask_bit hn]
       by_cases hx : n ∈ unusedBits <;> simp [hx])
    | simp [State.strBit, wordBit]

/-- A write of STR as a register changes STR alone (R25). -/
theorem writeStr_after (v : Word) (s : State) : ∃ x, writeStr v s = { s with str := x } := by
  unfold writeStr
  cases s.cfg.strUnused <;> exact ⟨_, rfl⟩

theorem writeReg_writtenAs (r : Reg) (v : Word) (s : State) : WrittenAs r v [] s (writeReg r v s) := by
  cases r
  case str =>
    refine ⟨?_, ?_⟩
    · intro n hn hx _
      exact (strBit_writeStr v s hn).trans (by simp [hx])
    · intro n hx
      have hn := unusedBits_lt hx
      refine (strBit_writeStr v s hn).trans ?_
      by_cases hs : s.cfg.strUnused = .storage <;> simp [hx, hs]
  all_goals exact rfl

/-- A register write changes no other register. -/
theorem writeReg_reg_ne {r q : Reg} (h : q ≠ r) (v : Word) (s : State) :
    (writeReg r v s).reg q = s.reg q := by
  cases r
  case str =>
    obtain ⟨x, hx⟩ := writeStr_after v s
    simp only [writeReg, hx]
    cases q <;> first | rfl | exact absurd rfl h
  all_goals (cases q <;> first | rfl | exact absurd rfl h)

/-- A register write changes nothing but registers. -/
theorem writeReg_rest (r : Reg) (v : Word) (s : State) :
    ∃ r0 r1 r2 r3 r4 sp str, writeReg r v s =
      { s with r0 := r0, r1 := r1, r2 := r2, r3 := r3, r4 := r4, sp := sp, str := str } := by
  cases r
  case str =>
    obtain ⟨x, hx⟩ := writeStr_after v s
    exact ⟨s.r0, s.r1, s.r2, s.r3, s.r4, s.sp, x, by simp only [writeReg, hx]⟩
  all_goals exact ⟨_, _, _, _, _, _, _, rfl⟩

/-! ### Effective addresses -/

theorem effectiveAddress_after (ea : Ea) (s : State) :
    ∃ n, (effectiveAddress ea s).after = { s with draws := n } := by
  unfold effectiveAddress
  cases ea.mode <;> first | exact ⟨s.draws, rfl⟩ | exact memRead_after _ s

theorem effectiveAddress_addresses (ea : Ea) (s : State) :
    Addresses ea s (effectiveAddress ea s).value := by
  unfold effectiveAddress Addresses
  cases ea.mode <;>
    first
    | exact rfl
    | exact memRead_loadsAs _ s
    | (simp only [BitVec.add_comm s.r3, BitVec.add_comm s.r4, BitVec.add_sub_cancel]
       exact memRead_loadsAs _ s)

/-! ### Flags and the end of an instruction -/

/-- The flag writes change STR and the count of drawn values alone. -/
theorem writeFlags_after (rd : Reg) (e v : Bool) (s : State) :
    ∃ x n, writeFlags rd e v s = { s with str := x, draws := n } := by
  unfold writeFlags
  split
  · exact ⟨_, _, rfl⟩
  · exact ⟨_, s.draws, rfl⟩

theorem writeE_after (rn : Reg) (e : Bool) (s : State) :
    ∃ x n, writeE rn e s = { s with str := x, draws := n } := by
  unfold writeE
  split
  · exact ⟨_, _, rfl⟩
  · exact ⟨_, s.draws, rfl⟩

theorem underPolicy_after (p : FlagPolicy) (rd : Reg) (e v : Bool) (s : State) :
    ∃ x n, underPolicy p (writeFlags rd e v) s = { s with str := x, draws := n } := by
  cases p
  · exact writeFlags_after rd e v s
  · exact ⟨s.str, s.draws, rfl⟩

theorem applyEm_after (em : Em) (s : State) : ∃ x, applyEm em s = { s with str := x } := by
  cases em
  · exact ⟨s.str, rfl⟩
  all_goals exact ⟨_, rfl⟩

/-- The end of an instruction with adder outputs moves IC alone. -/
theorem finish_after {w : Nat} (c : Cond) (res : BitVec w) (mag : Magnitude) (s : State) :
    finish c res mag s =
      { s with ic := s.ic + if conditionHolds c res s.flagE s.flagV mag then 2 else 1 } := rfl

/-- The end of an instruction without adder outputs moves IC, for some magnitude. -/
theorem finishFree_after {w : Nat} (c : Cond) (res : BitVec w) (s : State) :
    ∃ mag n, finishFree c res s =
      { s with
        ic := s.ic + if conditionHolds c res s.flagE s.flagV mag then 2 else 1
        draws := n } := by
  refine ⟨freeMagnitude s.draws, if usesMagnitude c then s.draws + 1 else s.draws, ?_⟩
  unfold finishFree
  cases usesMagnitude c <;> rfl

/-! ### Stack, I/O and PSW -/

/-- `Push` changes the memory and SP alone. -/
theorem push_after (v : Word) (s : State) :
    ∃ m, push v s = { s with mem := m, sp := pushedSp s } ∧
      (Memory.wf s.mem = true → Memory.wf m = true) := by
  obtain ⟨m, hm, hw⟩ := memWrite_after (pushAddress s) v s
  exact ⟨m, by unfold push; rw [hm], hw⟩

/-- `Pop` changes SP and the count of drawn values alone. -/
theorem pop_after (s : State) :
    (∃ n, (pop s).after = { s with sp := poppedSp s, draws := n }) ∧
      LoadsAs (popAddress s) s (pop s).value := by
  obtain ⟨n, hn⟩ := memRead_after (popAddress s) s
  exact ⟨⟨n, by unfold pop; simp only [hn]⟩, memRead_loadsAs _ s⟩

theorem ioRead_answered {port : Byte} {s : State} {v : Word} {rest : List Word}
    (h : s.ioAnswers = v :: rest) :
    ioRead port s =
      { value := v, after := { s with ioAnswers := rest, ioLog := s.ioLog ++ [.read port v] } } := by
  unfold ioRead; rw [h]

theorem ioRead_unanswered {port : Byte} {s : State} (h : s.ioAnswers = []) :
    ioRead port s =
      { value := freeWord s.draws
        after := { s.bump with ioLog := s.ioLog ++ [.read port (freeWord s.draws)] } } := by
  unfold ioRead; rw [h]; rfl

/-- An I/O read answers with the host's next word, if there is one, and records itself alone. -/
theorem ioRead_after (port : Byte) (s : State) :
    ∃ n, (ioRead port s).after =
      { s with
        ioAnswers := s.ioAnswers.tail
        ioLog := s.ioLog ++ [.read port (ioRead port s).value]
        draws := n } := by
  cases h : s.ioAnswers with
  | nil => exact ⟨s.draws + 1, by rw [ioRead_unanswered h]; simp [State.bump, h]⟩
  | cons v rest => exact ⟨s.draws, by rw [ioRead_answered h]; rfl⟩

/-- A PSW store changes the memory alone. -/
theorem writePsw_after (a strWord icWord : Word) (s : State) :
    ∃ m, writePsw a strWord icWord s = { s with mem := m } ∧
      (Memory.wf s.mem = true → Memory.wf m = true) := by
  unfold writePsw
  cases s.cfg.pswOrder
  · obtain ⟨m, hm, hw⟩ := memWrite_after a strWord s
    obtain ⟨m', hm', hw'⟩ := memWrite_after (a + 1) icWord { s with mem := m }
    exact ⟨m', by simp only [hm, hm'], fun h => hw' (hw h)⟩
  · obtain ⟨m, hm, hw⟩ := memWrite_after a icWord s
    obtain ⟨m', hm', hw'⟩ := memWrite_after (a + 1) strWord { s with mem := m }
    exact ⟨m', by simp only [hm, hm'], fun h => hw' (hw h)⟩

/-- A PSW load changes STR, IC and the count of drawn values alone. -/
theorem loadPsw_after (a : Word) (s : State) :
    ∃ x i n, loadPsw a s = { s with str := x, ic := i, draws := n } := by
  unfold loadPsw
  obtain ⟨n, hn⟩ := memRead_after a s
  obtain ⟨k, hk⟩ := memRead_after (a + 1) { s with draws := n }
  cases s.cfg.pswOrder
  · obtain ⟨x, hx⟩ := writeStr_after (memRead a s).value { s with draws := k }
    exact ⟨x, _, k, by simp only [hn, hk, hx]; rfl⟩
  · obtain ⟨x, hx⟩ := writeStr_after (memRead (a + 1) { s with draws := n }).value { s with draws := k }
    exact ⟨x, _, k, by simp only [hn, hk, hx]; rfl⟩

/-- Taking an interrupt changes the memory, STR, IC and the count of drawn values alone (R238). -/
theorem takeInterrupt_after (l : Level) (s : State) :
    ∃ m x i n, takeInterrupt l s = { s with mem := m, str := x, ic := i, draws := n } ∧
      (Memory.wf s.mem = true → Memory.wf m = true) := by
  unfold takeInterrupt
  obtain ⟨k, hk⟩ := readStr_after s
  obtain ⟨m, hm, hw⟩ := writePsw_after (levelAddress s.cfg.opsw l) (readStr s).value s.ic
    { s with draws := k }
  obtain ⟨x, i, n, hx⟩ := loadPsw_after (levelAddress s.cfg.npsw l) { s with draws := k, mem := m }
  exact ⟨m, x, i, n, by simp only [hk, hm, hx], hw⟩

/-- What reading the pins can do (R29, R236). -/
theorem samplePins_pinsRead (s : State) : PinsRead s (samplePins s) := by
  unfold PinsRead samplePins
  exact ⟨fun h => by rw [h], fun p rest h => by rw [h]⟩

end Sys2Proof.Machine
end

