-- ==== Sys2Proof/Laws/Frame.lean ====
section
/-!
SUPPORT. Frames of the shared operations, how frames compose, and how "received the value" survives
the operations that follow the register write.
-/

namespace Sys2Proof.Machine

open Sys2Proof.Config

/-! ### Composition -/

theorem samePlatform_trans {s t u : State} (h : SamePlatform s t) (g : SamePlatform t u) :
    SamePlatform s u := by
  obtain ⟨h1, h2, h3, h4⟩ := h
  obtain ⟨g1, g2, g3, g4⟩ := g
  exact ⟨g1.trans h1, g2.trans h2, g3.trans h3, g4.trans h4⟩

theorem frame_trans {regs : List Reg} {bits : List Nat} {s t u : State}
    (h : Frame regs bits s t) (g : Frame regs bits t u) : Frame regs bits s u := by
  obtain ⟨h1, h2, h3, h4⟩ := h
  obtain ⟨g1, g2, g3, g4⟩ := g
  exact ⟨fun r hr hn => (g1 r hr hn).trans (h1 r hr hn),
    fun hs n hn hb => (g2 hs n hn hb).trans (h2 hs n hn hb), samePlatform_trans h3 g3, g4.trans h4⟩

theorem frame_mono {regs regs' : List Reg} {bits bits' : List Nat} {s t : State}
    (h : Frame regs bits s t) (hr : regs ⊆ regs') (hb : bits ⊆ bits') : Frame regs' bits' s t :=
  ⟨fun r h1 h2 => h.1 r h1 fun h3 => h2 (hr h3),
    fun h1 n hn h2 => h.2.1 (fun h3 => h1 (hr h3)) n hn fun h3 => h2 (hb h3), h.2.2.1, h.2.2.2⟩

/-- When STR may change as a register, its bits need no mention. -/
theorem frame_str {regs : List Reg} {bits bits' : List Nat} {s t : State}
    (h : Frame regs bits s t) (hs : Reg.str ∈ regs) : Frame regs bits' s t :=
  ⟨h.1, fun h1 => absurd hs h1, h.2.2⟩

/-! ### Each operation -/

/-- A state that differs in memory, IC, the I/O record and the count of drawn values alone. -/
theorem frame_rest (regs : List Reg) (bits : List Nat) (s : State) (m : Memory) (a : Word)
    (log : List IoEvent) (ans : List Word) (n : Nat) :
    Frame regs bits s { s with mem := m, ic := a, ioLog := log, ioAnswers := ans, draws := n } :=
  ⟨fun r _ _ => by cases r <;> rfl, fun _ _ _ _ => rfl, ⟨rfl, rfl, rfl, rfl⟩, rfl⟩

theorem frame_draws (regs : List Reg) (bits : List Nat) (s : State) (n : Nat) :
    Frame regs bits s { s with draws := n } :=
  frame_rest regs bits s s.mem s.ic s.ioLog s.ioAnswers n

theorem memRead_frame (a : Word) (s : State) : Frame [] [] s (memRead a s).after := by
  obtain ⟨n, hn⟩ := memRead_after a s
  rw [hn]; exact frame_draws _ _ s n

theorem readReg_frame (r : Reg) (s : State) : Frame [] [] s (readReg r s).after := by
  obtain ⟨n, hn⟩ := readReg_after r s
  rw [hn]; exact frame_draws _ _ s n

theorem readPair_frame (rd rs : Reg) (s : State) : Frame [] [] s (readPair rd rs s).after := by
  obtain ⟨n, hn⟩ := readPair_after rd rs s
  rw [hn]; exact frame_draws _ _ s n

theorem effectiveAddress_frame (ea : Ea) (s : State) :
    Frame [] [] s (effectiveAddress ea s).after := by
  obtain ⟨n, hn⟩ := effectiveAddress_after ea s
  rw [hn]; exact frame_draws _ _ s n

theorem memWrite_frame (a v : Word) (s : State) : Frame [] [] s (memWrite a v s) := by
  obtain ⟨m, hm, -⟩ := memWrite_after a v s
  rw [hm]; exact frame_rest _ _ s m s.ic s.ioLog s.ioAnswers s.draws

theorem writeReg_frame (r : Reg) (v : Word) (s : State) : Frame [r] [] s (writeReg r v s) := by
  refine ⟨fun q _ hq => writeReg_reg_ne (by simpa using hq) v s, ?_, ?_, ?_⟩
  · intro hr n _ _
    cases r <;> first | rfl | simp at hr
  all_goals
    obtain ⟨_, _, _, _, _, _, _, h⟩ := writeReg_rest r v s
    rw [h]
  · exact ⟨rfl, rfl, rfl, rfl⟩

theorem setIc_frame (a : Word) (s : State) : Frame [] [] s (s.setIc a) :=
  frame_rest _ _ s s.mem a s.ioLog s.ioAnswers s.draws

theorem advance_frame (skip : Bool) (s : State) : Frame [] [] s (advance skip s) :=
  setIc_frame _ s

theorem finish_frame {w : Nat} (c : Cond) (res : BitVec w) (mag : Magnitude) (s : State) :
    Frame [] [] s (finish c res mag s) := setIc_frame _ s

theorem finishFree_frame {w : Nat} (c : Cond) (res : BitVec w) (s : State) :
    Frame [] [] s (finishFree c res s) := by
  obtain ⟨mag, n, h⟩ := finishFree_after c res s
  rw [h]; exact frame_rest _ _ s s.mem _ s.ioLog s.ioAnswers n

theorem setFlags_frame (e v : Bool) (s : State) : Frame [] [0, 2] s (setFlags e v s) := by
  refine ⟨fun r hr _ => by cases r <;> first | rfl | exact absurd rfl hr, ?_, ⟨rfl, rfl, rfl, rfl⟩, rfl⟩
  intro _ n hn hb
  rw [strBit_setFlags hn]
  simp only [List.mem_cons, List.not_mem_nil, or_false, not_or] at hb
  simp [hb.1, hb.2]

theorem freeFlags_frame (s : State) : Frame [] [0, 2] s (freeFlags s) := by
  refine ⟨fun r hr _ => by cases r <;> first | rfl | exact absurd rfl hr, ?_, ⟨rfl, rfl, rfl, rfl⟩, rfl⟩
  intro _ n hn hb
  simp only [List.mem_cons, List.not_mem_nil, or_false, not_or] at hb
  exact strBit_freeFlags hn hb.1 hb.2

theorem setE_frame (e : Bool) (s : State) : Frame [] [0] s (s.setE e) := by
  refine ⟨fun r hr _ => by cases r <;> first | rfl | exact absurd rfl hr, ?_, ⟨rfl, rfl, rfl, rfl⟩, rfl⟩
  intro _ n hn hb
  unfold State.setE
  rw [strBit_setStrBit (by omega) hn, if_neg (by simpa using hb)]

theorem applyEm_frame (em : Em) (s : State) : Frame [] [0] s (applyEm em s) := by
  cases em
  · exact frame_draws _ _ s s.draws
  all_goals exact setE_frame _ s

theorem writeFlags_frame (rd : Reg) (e v : Bool) (s : State) :
    Frame [] [0, 2] s (writeFlags rd e v s) := by
  unfold writeFlags
  split
  · exact freeFlags_frame s
  · exact setFlags_frame e v s

/-- SL and SR write E; with STR as the destination, the bits of STR are the destination's. -/
theorem writeE_frame (rn : Reg) (e : Bool) (s : State) : Frame [rn] [0] s (writeE rn e s) := by
  unfold writeE
  split
  · rename_i h; subst h
    exact frame_str (frame_mono (freeFlags_frame s) (by simp) (List.Subset.refl _)) (by simp)
  · exact frame_mono (setE_frame e s) (by simp) (by simp)

theorem underPolicy_frame (p : FlagPolicy) (rd : Reg) (e v : Bool) (s : State) :
    Frame [] [0, 2] s (underPolicy p (writeFlags rd e v) s) := by
  cases p
  · exact writeFlags_frame rd e v s
  · exact frame_draws _ _ s s.draws

/-! ### The value written survives -/

theorem writtenAs_draws {r : Reg} {v : Word} {free : List Nat} {s t : State} {n : Nat} :
    WrittenAs r v free { s with draws := n } t ↔ WrittenAs r v free s t := by
  cases r <;> exact Iff.rfl

/-- Operations that change only bits already free keep what was written. -/
theorem writtenAs_frame {r : Reg} {v : Word} {free free' bits : List Nat} {s t u : State}
    (h : WrittenAs r v free s t) (g : Frame [] bits t u) (hf : free ⊆ free')
    (hb : r = .str → bits ⊆ free') (hu : ∀ n ∈ bits, n ∉ unusedBits) : WrittenAs r v free' s u := by
  cases r
  case str =>
    refine ⟨fun n hn h1 h2 => ?_, fun n hn => ?_⟩
    · rw [g.2.1 (by simp) n hn fun h3 => h2 (hb rfl h3)]
      exact h.1 n hn h1 fun h3 => h2 (hf h3)
    · rw [g.2.1 (by simp) n (unusedBits_lt hn) fun h3 => hu n h3 hn]
      exact h.2 n hn
  all_goals exact (g.1 _ (by simp) (by simp)).trans h

/-! ### Memory and I/O left alone -/

theorem sameMemory_of_eq {s t : State} (h : t.mem = s.mem) : SameMemory s t := fun k => by rw [h]

theorem writeReg_mem (r : Reg) (v : Word) (s : State) : (writeReg r v s).mem = s.mem := by
  obtain ⟨_, _, _, _, _, _, _, h⟩ := writeReg_rest r v s
  rw [h]

theorem writeReg_ic (r : Reg) (v : Word) (s : State) : (writeReg r v s).ic = s.ic := by
  obtain ⟨_, _, _, _, _, _, _, h⟩ := writeReg_rest r v s
  rw [h]

theorem writeReg_cfg (r : Reg) (v : Word) (s : State) : (writeReg r v s).cfg = s.cfg := by
  obtain ⟨_, _, _, _, _, _, _, h⟩ := writeReg_rest r v s
  rw [h]

theorem writeReg_io (r : Reg) (v : Word) (s : State) : SameIo s (writeReg r v s) := by
  obtain ⟨_, _, _, _, _, _, _, h⟩ := writeReg_rest r v s
  rw [h]; exact ⟨rfl, rfl⟩

end Sys2Proof.Machine
end

