-- ==== Sys2Proof/Laws/Endings.lean ====
section
/-!
SUPPORT. The common endings of instructions: a register write, the flag writes, the condition. Each
lemma says once all that the ending does, from the state `s` before the operands were read.
-/

namespace Sys2Proof.Machine

open Sys2Proof.Config

theorem flags_setFlags (e v : Bool) (s : State) :
    (setFlags e v s).flagE = e ∧ (setFlags e v s).flagV = v :=
  ⟨strBit_setFlags (by omega), strBit_setFlags (by omega)⟩

theorem flagE_writeE {rn : Reg} (h : rn ≠ .str) (e : Bool) (s : State) :
    (writeE rn e s).flagE = e := by
  unfold writeE
  rw [if_neg h]
  exact (strBit_setStrBit (by omega) (by omega)).trans (if_pos rfl)

/-- Instructions without adder outputs that write a register. -/
theorem finishFree_writeReg {w : Nat} (rd : Reg) (v : Word) (c : Cond) (res : BitVec w) (s : State)
    (n : Nat) (t : State) (ht : t = finishFree c res (writeReg rd v { s with draws := n })) :
    WrittenAs rd v [] s t ∧ SkipsFreely c res s t ∧ Frame [rd] [] s t ∧ SameMemory s t ∧
      SameIo s t := by
  subst ht
  have hw := writeReg_writtenAs rd v { s with draws := n }
  have hf := writeReg_frame rd v { s with draws := n }
  have hi := writeReg_io rd v { s with draws := n }
  have hm := writeReg_mem rd v { s with draws := n }
  have hc := writeReg_ic rd v { s with draws := n }
  generalize writeReg rd v { s with draws := n } = t at *
  obtain ⟨mag, k, hk⟩ := finishFree_after c res t
  refine ⟨?_, ⟨mag, ?_⟩, ?_, ?_, ?_⟩
  · exact writtenAs_frame (writtenAs_draws.mp hw) (finishFree_frame c res t) (by simp) (by simp)
      (by simp)
  · unfold SkipsOn
    rw [hk]
    simp only [hc]
    rfl
  · exact frame_trans (frame_trans (frame_draws _ _ s n) hf)
      (frame_mono (finishFree_frame c res t) (by simp) (by simp))
  · rw [hk]; exact sameMemory_of_eq hm
  · rw [hk]; exact hi

/-- A, S, and the instructions whose family updates E and V. -/
theorem finish_writeFlags {w : Nat} (rd : Reg) (v : Word) (c : Cond) (res : BitVec w)
    (mag : Magnitude) (e o : Bool) (s : State) (n : Nat) (t : State)
    (ht : t = finish c res mag (writeFlags rd e o (writeReg rd v { s with draws := n }))) :
    WrittenAs rd v [0, 2] s t ∧ (rd ≠ .str → t.flagE = e ∧ t.flagV = o) ∧ SkipsOn c res mag s t ∧
      Frame [rd] [0, 2] s t ∧ SameMemory s t ∧ SameIo s t := by
  have hw := writeReg_writtenAs rd v { s with draws := n }
  have hf := writeReg_frame rd v { s with draws := n }
  have hi := writeReg_io rd v { s with draws := n }
  have hm := writeReg_mem rd v { s with draws := n }
  have hc := writeReg_ic rd v { s with draws := n }
  generalize writeReg rd v { s with draws := n } = t1 at *
  have hf2 := writeFlags_frame rd e o t1
  have hw2 := writtenAs_frame (free' := [0, 2]) (writtenAs_draws.mp hw) hf2 (by simp) (by simp)
    (by decide)
  have hff : rd ≠ .str → (writeFlags rd e o t1).flagE = e ∧ (writeFlags rd e o t1).flagV = o := by
    intro h
    unfold writeFlags
    rw [if_neg h]
    exact flags_setFlags _ _ _
  obtain ⟨x, k, hk⟩ := writeFlags_after rd e o t1
  have hm2 : (writeFlags rd e o t1).mem = s.mem := by rw [hk]; exact hm
  have hc2 : (writeFlags rd e o t1).ic = s.ic := by rw [hk]; exact hc
  have hi2 : SameIo s (writeFlags rd e o t1) := by rw [hk]; exact hi
  clear hk
  generalize writeFlags rd e o t1 = t2 at *
  subst ht
  refine ⟨?_, hff, ?_, ?_, sameMemory_of_eq hm2, hi2⟩
  · exact writtenAs_frame hw2 (finish_frame c res mag t2) (by simp) (by simp) (by simp)
  · unfold SkipsOn
    rw [finish_after]
    simp only [hc2]
    rfl
  · exact frame_trans
      (frame_trans (frame_draws _ _ s n) (frame_mono hf (List.Subset.refl _) (by simp)))
      (frame_trans (frame_mono hf2 (by simp) (List.Subset.refl _))
        (frame_mono (finish_frame c res mag t2) (by simp) (by simp)))

/-- LAD, AI and SI: the same under the family's parameter. -/
theorem finish_underPolicy {w : Nat} (p : FlagPolicy) (rd : Reg) (v : Word) (c : Cond)
    (res : BitVec w) (mag : Magnitude) (e o : Bool) (s : State) (n : Nat) (t : State)
    (ht : t = finish c res mag
      (underPolicy p (writeFlags rd e o) (writeReg rd v { s with draws := n }))) :
    WrittenAs rd v (if p = .update then [0, 2] else []) s t ∧
      (rd ≠ .str → p = .update → t.flagE = e ∧ t.flagV = o) ∧
      (rd ≠ .str → p = .keep → t.flagE = s.flagE ∧ t.flagV = s.flagV) ∧
      SkipsOn c res mag s t ∧ Frame [rd] [0, 2] s t ∧ SameMemory s t ∧ SameIo s t := by
  cases p
  · obtain ⟨h1, h2, h3, h4, h5, h6⟩ := finish_writeFlags rd v c res mag e o s n t ht
    exact ⟨h1, fun h _ => h2 h, by simp, h3, h4, h5, h6⟩
  · simp only [underPolicy] at ht
    have hw := writeReg_writtenAs rd v { s with draws := n }
    have hf := writeReg_frame rd v { s with draws := n }
    have hi := writeReg_io rd v { s with draws := n }
    have hm := writeReg_mem rd v { s with draws := n }
    have hc := writeReg_ic rd v { s with draws := n }
    generalize writeReg rd v { s with draws := n } = t1 at *
    subst ht
    have hF : Frame [rd] [] s (finish c res mag t1) :=
      frame_trans (frame_trans (frame_draws _ _ s n) hf)
        (frame_mono (finish_frame c res mag t1) (by simp) (by simp))
    refine ⟨?_, by simp, fun h _ => ?_, ?_, frame_mono hF (List.Subset.refl _) (by simp),
      sameMemory_of_eq hm, hi⟩
    · exact writtenAs_frame (writtenAs_draws.mp hw) (finish_frame c res mag t1) (by simp) (by simp)
        (by simp)
    · have hs : Reg.str ∉ [rd] := by simpa using fun e => h e.symm
      exact ⟨hF.2.1 hs 0 (by omega) (by simp), hF.2.1 hs 2 (by omega) (by simp)⟩
    · unfold SkipsOn
      rw [finish_after]
      simp only [hc]
      rfl

/-- C and CB. -/
theorem compareValues_does {w : Nat} (x y : BitVec w) (c : Cond) (s : State) (n : Nat) (t : State)
    (ht : t = compareValues x y c { s with draws := n }) :
    (s.cfg.flagsCmp = .update →
      t.flagE = eOfSub s.cfg.eOnSub (sub x y).carry ∧ t.flagV = (sub x y).ovf) ∧
      (s.cfg.flagsCmp = .keep → t.flagE = s.flagE ∧ t.flagV = s.flagV) ∧
      SkipsOn c (x - y) (magnitude s.cfg.lcond (x - y) (sub x y).carry (sub x y).ovf) s t ∧
      Frame [] [0, 2] s t ∧ SameMemory s t ∧ SameIo s t := by
  unfold compareValues at ht
  dsimp only at ht
  rw [sub_res] at ht
  cases h : s.cfg.flagsCmp <;> rw [h] at ht <;> simp only [underPolicy] at ht <;> subst ht
  · refine ⟨fun _ => flags_setFlags _ _ _, by simp, rfl, ?_, fun k => rfl, ⟨rfl, rfl⟩⟩
    exact frame_trans (frame_draws _ _ s n)
      (frame_trans (setFlags_frame _ _ _) (frame_mono (finish_frame _ _ _ _) (by simp) (by simp)))
  · refine ⟨by simp, fun _ => ⟨rfl, rfl⟩, rfl, ?_, fun k => rfl, ⟨rfl, rfl⟩⟩
    exact frame_trans (frame_draws _ _ s n) (frame_mono (finish_frame _ _ _ _) (by simp) (by simp))

end Sys2Proof.Machine
end

