-- ==== Sys2Proof/Laws/PerInstr.lean ====
section
/-!
SUPPORT. The family `TableRow`: the word of every well-formed instruction is a word of its row of
spec/opcode_table.json.
-/

namespace Sys2Proof.Laws

-- one theorem after another: many at once need more threads than the memory limit allows
set_option Elab.async false

/-- The `mask` and `match` of an instruction's row of spec/opcode_table.json. -/
def tableRow : Instr → Word × Word
  | .l _ _ => (0xC000, 0xC000)
  | .st _ _ => (0xC000, 0x8000)
  | .ims _ => (0xC700, 0xC600)
  | .dms _ => (0xC700, 0x8600)
  | .b _ => (0xC700, 0xC700)
  | .bal _ => (0xC700, 0x8700)
  | .ret => (0xFFFF, 0x2003)
  | .a _ _ _ => (0xF808, 0x5808)
  | .s _ _ _ => (0xF808, 0x5800)
  | .and _ _ _ => (0xF808, 0x6808)
  | .or _ _ _ => (0xF808, 0x6008)
  | .eor _ _ _ => (0xF808, 0x6000)
  | .c _ _ _ => (0xF808, 0x5008)
  | .cb _ _ _ => (0xF808, 0x5000)
  | .mv _ _ _ => (0xF808, 0x7808)
  | .mvb _ _ _ => (0xF808, 0x7800)
  | .bswp _ _ _ => (0xF808, 0x7008)
  | .dswp _ _ _ => (0xF808, 0x7000)
  | .lad _ _ _ => (0xF808, 0x6800)
  | .sl _ _ _ => (0xF80C, 0x200C)
  | .sr _ _ _ => (0xF80C, 0x2008)
  | .sbit _ _ _ => (0xF800, 0x3800)
  | .rbit _ _ _ => (0xF800, 0x3000)
  | .tbit _ _ _ => (0xF800, 0x2800)
  | .ai _ _ _ => (0xF800, 0x4800)
  | .si _ _ _ => (0xF800, 0x4000)
  | .mvi _ _ => (0xF800, 0x0800)
  | .rd _ _ => (0xF800, 0x1800)
  | .wt _ _ => (0xF800, 0x1000)
  | .lpsw _ => (0xFFFC, 0x2004)
  | .h => (0xFFFF, 0x2000)
  | .push _ => (0xF8FF, 0x2001)
  | .pop _ => (0xF8FF, 0x2002)

/-- The word of a well-formed instruction has its row's fixed bits. -/
def TableRow.Statement (i : Instr) : Prop :=
  i.wellFormed = true → encode i &&& (tableRow i).1 = (tableRow i).2

/-- A word equation bit by bit. -/
theorem eq_of_bits {v w : Word} (h : ∀ k : Fin 16, v.getLsbD k = w.getLsbD k) : v = w :=
  BitVec.eq_of_getLsbD_eq fun i hi => h ⟨i, hi⟩

/-! What each format's mask leaves of a word: its opcode bits. -/

theorem encodeM_load_mask (op : BitVec 1) (r : BitVec 3) (ea : Ea) :
    encodeM op r ea &&& 0xC000 = 1#1 ++ op ++ 0#14 := by
  apply eq_of_bits
  intro k
  fin_cases k <;> simp only [encodeM, BitVec.getLsbD_and, BitVec.getLsbD_append] <;> simp

theorem encodeM_mask (op : BitVec 1) (r : BitVec 3) (ea : Ea) :
    encodeM op r ea &&& 0xC700 = 1#1 ++ op ++ 0#3 ++ r ++ 0#8 := by
  apply eq_of_bits
  intro k
  fin_cases k <;> simp only [encodeM, BitVec.getLsbD_and, BitVec.getLsbD_append] <;> simp

theorem encodeRR_mask (op : BitVec 5) (sub : BitVec 1) (rd rs : Reg) (c : Cond) :
    encodeRR op sub rd rs c &&& 0xF808 = op ++ 0#7 ++ sub ++ 0#3 := by
  apply eq_of_bits
  intro k
  fin_cases k <;> simp only [encodeRR, BitVec.getLsbD_and, BitVec.getLsbD_append] <;> simp

theorem encodeSH_mask (dir : BitVec 1) (rn : Reg) (em : Em) (c : Cond) :
    encodeSH dir rn em c &&& 0xF80C = 4#5 ++ 0#7 ++ 1#1 ++ dir ++ 0#2 := by
  apply eq_of_bits
  intro k
  fin_cases k <;> simp only [encodeSH, BitVec.getLsbD_and, BitVec.getLsbD_append] <;> simp

theorem encodeBI_mask (op : BitVec 5) (rn : Reg) (i4 : BitVec 4) (c : Cond) :
    encodeBI op rn i4 c &&& 0xF800 = op ++ 0#11 := by
  apply eq_of_bits
  intro k
  fin_cases k <;> simp only [encodeBI, BitVec.getLsbD_and, BitVec.getLsbD_append] <;> simp

theorem encodeI8_mask (op : BitVec 5) (rn : Reg) (i8 : Byte) :
    encodeI8 op rn i8 &&& 0xF800 = op ++ 0#11 := by
  apply eq_of_bits
  intro k
  fin_cases k <;> simp only [encodeI8, BitVec.getLsbD_and, BitVec.getLsbD_append] <;> simp

/-! One lemma for each instruction. -/

theorem TableRow.l (r : Reg) (ea : Ea) : TableRow.Statement (.l r ea) :=
  fun _ => encodeM_load_mask _ _ _

theorem TableRow.st (r : Reg) (ea : Ea) : TableRow.Statement (.st r ea) :=
  fun _ => encodeM_load_mask _ _ _

theorem TableRow.ims (ea : Ea) : TableRow.Statement (.ims ea) :=
  fun _ => encodeM_mask _ _ _

theorem TableRow.dms (ea : Ea) : TableRow.Statement (.dms ea) :=
  fun _ => encodeM_mask _ _ _

theorem TableRow.b (ea : Ea) : TableRow.Statement (.b ea) :=
  fun _ => encodeM_mask _ _ _

theorem TableRow.bal (ea : Ea) : TableRow.Statement (.bal ea) :=
  fun _ => encodeM_mask _ _ _

theorem TableRow.ret : TableRow.Statement .ret :=
  fun _ => rfl

theorem TableRow.a (rd : Reg) (rs : Reg) (c : Cond) : TableRow.Statement (.a rd rs c) :=
  fun _ => encodeRR_mask _ _ _ _ _

theorem TableRow.s (rd : Reg) (rs : Reg) (c : Cond) : TableRow.Statement (.s rd rs c) :=
  fun _ => encodeRR_mask _ _ _ _ _

theorem TableRow.and (rd : Reg) (rs : Reg) (c : Cond) : TableRow.Statement (.and rd rs c) :=
  fun _ => encodeRR_mask _ _ _ _ _

theorem TableRow.or (rd : Reg) (rs : Reg) (c : Cond) : TableRow.Statement (.or rd rs c) :=
  fun _ => encodeRR_mask _ _ _ _ _

theorem TableRow.eor (rd : Reg) (rs : Reg) (c : Cond) : TableRow.Statement (.eor rd rs c) :=
  fun _ => encodeRR_mask _ _ _ _ _

theorem TableRow.c (rd : Reg) (rs : Reg) (c : Cond) : TableRow.Statement (.c rd rs c) :=
  fun _ => encodeRR_mask _ _ _ _ _

theorem TableRow.cb (rd : Reg) (rs : Reg) (c : Cond) : TableRow.Statement (.cb rd rs c) :=
  fun _ => encodeRR_mask _ _ _ _ _

theorem TableRow.mv (rd : Reg) (rs : Reg) (c : Cond) : TableRow.Statement (.mv rd rs c) :=
  fun _ => encodeRR_mask _ _ _ _ _

theorem TableRow.mvb (rd : Reg) (rs : Reg) (c : Cond) : TableRow.Statement (.mvb rd rs c) :=
  fun _ => encodeRR_mask _ _ _ _ _

theorem TableRow.bswp (rd : Reg) (rs : Reg) (c : Cond) : TableRow.Statement (.bswp rd rs c) :=
  fun _ => encodeRR_mask _ _ _ _ _

theorem TableRow.dswp (rd : Reg) (rs : Reg) (c : Cond) : TableRow.Statement (.dswp rd rs c) :=
  fun _ => encodeRR_mask _ _ _ _ _

theorem TableRow.lad (rd : Reg) (rs : Reg) (c : Cond) : TableRow.Statement (.lad rd rs c) :=
  fun _ => encodeRR_mask _ _ _ _ _

theorem TableRow.sl (rn : Reg) (em : Em) (c : Cond) : TableRow.Statement (.sl rn em c) :=
  fun _ => encodeSH_mask _ _ _ _

theorem TableRow.sr (rn : Reg) (em : Em) (c : Cond) : TableRow.Statement (.sr rn em c) :=
  fun _ => encodeSH_mask _ _ _ _

theorem TableRow.sbit (rn : Reg) (i4 : BitVec 4) (c : Cond) : TableRow.Statement (.sbit rn i4 c) :=
  fun _ => encodeBI_mask _ _ _ _

theorem TableRow.rbit (rn : Reg) (i4 : BitVec 4) (c : Cond) : TableRow.Statement (.rbit rn i4 c) :=
  fun _ => encodeBI_mask _ _ _ _

theorem TableRow.tbit (rn : Reg) (i4 : BitVec 4) (c : Cond) : TableRow.Statement (.tbit rn i4 c) :=
  fun _ => encodeBI_mask _ _ _ _

theorem TableRow.ai (rn : Reg) (i4 : BitVec 4) (c : Cond) : TableRow.Statement (.ai rn i4 c) :=
  fun _ => encodeBI_mask _ _ _ _

theorem TableRow.si (rn : Reg) (i4 : BitVec 4) (c : Cond) : TableRow.Statement (.si rn i4 c) :=
  fun _ => encodeBI_mask _ _ _ _

theorem TableRow.mvi (rn : Reg) (i8 : Byte) : TableRow.Statement (.mvi rn i8) :=
  fun _ => encodeI8_mask _ _ _

theorem TableRow.rd (rn : Reg) (i8 : Byte) : TableRow.Statement (.rd rn i8) :=
  fun _ => encodeI8_mask _ _ _

theorem TableRow.wt (rn : Reg) (i8 : Byte) : TableRow.Statement (.wt rn i8) :=
  fun _ => encodeI8_mask _ _ _

theorem TableRow.lpsw (i2 : BitVec 2) : TableRow.Statement (.lpsw i2) := by
  intro _; revert i2; decide

theorem TableRow.h : TableRow.Statement .h :=
  fun _ => rfl

theorem TableRow.push (rn : Reg) : TableRow.Statement (.push rn) := by
  intro _; cases rn <;> rfl

theorem TableRow.pop (rn : Reg) : TableRow.Statement (.pop rn) := by
  intro _; cases rn <;> rfl

end Sys2Proof.Laws
end

