-- ==== Sys2Proof/Tests/Slice0.lean ====
section
/-!
SUPPORT. Named tests. Expected values are the worked examples of the instruction rules and the vectors
of spec/95_test_vectors.md (computed there by hand), under CFG0. Witnesses: for every statement with
hypotheses, a state and operands that meet them.
-/

namespace Sys2Proof.Tests

-- one theorem after another: many at once need more threads than the memory limit allows
set_option Elab.async false

open Sys2Proof.Machine Sys2Proof.Config

/-! ### WellFormed: what R13 forbids is refused -/

theorem test_load_of_STR_is_ill_formed (ea : Ea) : (Instr.l .str ea).wellFormed = false := rfl
theorem test_store_of_STR_is_ill_formed (ea : Ea) : (Instr.st .str ea).wellFormed = false := rfl
theorem test_load_of_SP_is_well_formed (ea : Ea) : (Instr.l .sp ea).wellFormed = true := rfl

/-! ### Decoding: words written out from R101 to R106, field by field -/

-- format M: 1 op mode r disp
theorem test_decode_L : decode 0b11_100_001_00000101 = .instr (.l .r1 ⟨.indexX0, 5⟩) := by decide
theorem test_decode_ST : decode 0b10_000_010_00010000 = .instr (.st .r2 ⟨.zeroPage, 0x10⟩) := by
  decide
theorem test_decode_IMS : decode 0b11_000_110_00100000 = .instr (.ims ⟨.zeroPage, 0x20⟩) := by
  decide
theorem test_decode_DMS :
    decode 0b10_010_110_00110000 = .instr (.dms ⟨.zeroPageIndirect, 0x30⟩) := by decide
theorem test_decode_B : decode 0b11_011_111_10000000 = .instr (.b ⟨.relativeIndirect, 0x80⟩) := by
  decide
theorem test_decode_BAL : decode 0b10_001_111_00000101 = .instr (.bal ⟨.relative, 5⟩) := by decide
-- format RR: op5 rd c sub rs
theorem test_decode_A : decode 0b01011_001_1001_1_000 = .instr (.a .r1 .r0 .enz) := by decide
theorem test_decode_S : decode 0b01011_010_0100_0_001 = .instr (.s .r2 .r1 .z) := by decide
theorem test_decode_AND : decode 0b01101_000_0000_1_001 = .instr (.and .r0 .r1 .never) := by decide
theorem test_decode_OR : decode 0b01100_010_0101_1_011 = .instr (.or .r2 .r3 .nz) := by decide
theorem test_decode_EOR : decode 0b01100_100_0000_0_100 = .instr (.eor .r4 .r4 .never) := by decide
theorem test_decode_C : decode 0b01010_000_1101_1_001 = .instr (.c .r0 .r1 .lp) := by decide
theorem test_decode_CB : decode 0b01010_010_1111_0_011 = .instr (.cb .r2 .r3 .lm) := by decide
theorem test_decode_MV : decode 0b01111_110_0000_1_000 = .instr (.mv .str .r0 .never) := by decide
theorem test_decode_MVB : decode 0b01111_001_0100_0_000 = .instr (.mvb .r1 .r0 .z) := by decide
theorem test_decode_BSWP : decode 0b01110_000_0010_1_101 = .instr (.bswp .r0 .sp .m) := by decide
theorem test_decode_DSWP : decode 0b01110_001_0000_0_010 = .instr (.dswp .r1 .r2 .never) := by
  decide
theorem test_decode_LAD : decode 0b01101_000_0001_0_001 = .instr (.lad .r0 .r1 .skp) := by decide
-- format SH: 00100 rn c 1 dir em
theorem test_decode_SL : decode 0b00100_000_1000_1_1_01 = .instr (.sl .r0 .re .ez) := by decide
theorem test_decode_SR : decode 0b00100_001_0000_1_0_11 = .instr (.sr .r1 .ce .never) := by decide
-- format BI: op5 rn c i4
theorem test_decode_SBIT : decode 0b00111_110_0011_0101 = .instr (.sbit .str 5 .pz) := by decide
theorem test_decode_RBIT : decode 0b00110_001_0100_1111 = .instr (.rbit .r1 15 .z) := by decide
theorem test_decode_TBIT : decode 0b00101_010_0101_0011 = .instr (.tbit .r2 3 .nz) := by decide
theorem test_decode_AI : decode 0b01001_011_0111_0001 = .instr (.ai .r3 1 .p) := by decide
theorem test_decode_SI : decode 0b01000_000_1110_1010 = .instr (.si .r0 10 .lpz) := by decide
-- format I8: op5 rn i8
theorem test_decode_MVI : decode 0b00001_101_11111111 = .instr (.mvi .sp 0xFF) := by decide
theorem test_decode_RD : decode 0b00011_000_00010000 = .instr (.rd .r0 0x10) := by decide
theorem test_decode_WT : decode 0b00010_001_10100000 = .instr (.wt .r1 0xA0) := by decide
-- format Z: 00100 rn 0000 0 fn
theorem test_decode_H : decode 0b00100_000_0000_0_000 = .instr .h := by decide
theorem test_decode_PUSH : decode 0b00100_110_0000_0_001 = .instr (.push .str) := by decide
theorem test_decode_POP : decode 0b00100_010_0000_0_010 = .instr (.pop .r2) := by decide
theorem test_decode_RET : decode 0b00100_000_0000_0_011 = .instr .ret := by decide
theorem test_decode_LPSW : decode 0b00100_000_0000_0_1_10 = .instr (.lpsw 2) := by decide
-- the undefined words of R108, by class
theorem test_decode_low_words :
    decode 0x0000 = .undefined .opcodeZero ∧ decode 0x07FF = .undefined .opcodeZero := by decide
theorem test_decode_register_seven :
    decode 0x0F00 = .undefined .registerSeven ∧ decode 0x580F = .undefined .registerSeven ∧
      decode 0x2F08 = .undefined .registerSeven ∧ decode 0x2701 = .undefined .registerSeven := by
  decide
theorem test_decode_stray_bits :
    decode 0x2010 = .undefined .strayBits ∧ decode 0x2100 = .undefined .strayBits ∧
      decode 0x2103 = .undefined .strayBits ∧ decode 0x2604 = .undefined .strayBits := by decide
theorem test_decodeTableWord : decodeTableWord 16 0x2003 = some .ret := by decide

/-! ### One step -/

/-- A state to start from: R0 to R4 hold 0, SP = 0x0FFF, IC = 0x0100, STR as given. -/
def at100 (str : Word) : State := { State.reset with sp := 0x0FFF, ic := 0x0100, str := str }

/-- The same with one memory word. -/
def withWord (a v : Word) (s : State) : State := { s with mem := writeWord s.mem a v }

/-- The same with P_STR_UNUSED = zero, so that a read of STR has one value. -/
def settled (s : State) : State := { s with cfg := { s.cfg with strUnused := .zero } }

/-- A field of the next state. -/
def field {α : Type} (o : Result) (f : State → α) : Option α :=
  match o with
  | .next t => some (f t)
  | .fault _ | .refused _ => none

/-- A field of the state after the step that runs the word `w` at IC. -/
def after {α : Type} (w : Nat) (s : State) (f : State → α) : Option α :=
  field (step (s.withFetchWord 16 w)) f

theorem test_L_old_index : after 0xE302 (withWord 0x0402 0x0777 { at100 0 with r3 := 0x0400 })
    (fun t => (t.r3, t.ic)) = some (0x0777, 0x0101) := by decide +kernel
theorem test_L_relative : after 0xC880 (withWord 0x0F80 0xBEEF { at100 0 with ic := 0x1000 })
    (fun t => (t.r0, t.ic)) = some (0xBEEF, 0x1001) := by decide +kernel
theorem test_ST : after 0x8210 { at100 0 with r2 := 0x1234 }
    (fun t => (readWord t.mem 0x0010, t.r2)) = some (0x1234, 0x1234) := by decide +kernel
theorem test_ST_indirect : after 0x9130 (withWord 0x0030 0x0040 { at100 0 with r1 := 0xAAAA })
    (fun t => (readWord t.mem 0x0040, readWord t.mem 0x0030)) = some (0xAAAA, 0x0040) := by
  decide +kernel
theorem test_IMS_skips : after 0xC640 (withWord 0x0040 0xFFFF (at100 5))
    (fun t => (readWord t.mem 0x0040, t.ic, t.str)) = some (0x0000, 0x0102, 5) := by decide +kernel
theorem test_DMS_wraps : after 0x8640 (withWord 0x0040 0x0000 (at100 5))
    (fun t => (readWord t.mem 0x0040, t.ic, t.str)) = some (0xFFFF, 0x0101, 5) := by decide +kernel
theorem test_B_indirect : after 0xD740 (withWord 0x0040 0x1234 (at100 0)) State.ic
    = some 0x1234 := by decide +kernel
theorem test_B_wraps : after 0xCF80 { at100 0 with ic := 0x0010 } State.ic = some 0xFF90 := by
  decide +kernel
theorem test_BAL : after 0x8F05 (at100 0) (fun t => (readWord t.mem 0x0FFF, t.sp, t.ic))
    = some (0x0101, 0x0FFE, 0x0105) := by decide +kernel
theorem test_BAL_pre_increment :
    after 0x8740 { at100 0 with cfg := { cfg0 with stack := .pushPreInc } }
      (fun t => (readWord t.mem 0x1000, t.sp)) = some (0x0101, 0x1000) := by decide +kernel
theorem test_RET : after 0x2003 (withWord 0x0FFF 0x0101 { at100 0 with sp := 0x0FFE })
    (fun t => (t.ic, t.sp)) = some (0x0101, 0x0FFF) := by decide +kernel
theorem test_A_carry_skips : after 0x5998 { at100 0 with r1 := 0xFFFF, r0 := 1 }
    (fun t => (t.r1, t.flagE, t.flagV, t.ic)) = some (0x0000, true, false, 0x0102) := by
  decide +kernel
theorem test_A_same_register : after 0x5A0A { at100 0 with r2 := 0x4001 }
    (fun t => (t.r2, t.flagE, t.flagV)) = some (0x8002, false, true) := by decide +kernel
theorem test_S_overflow : after 0x5801 { at100 0 with r0 := 0x8000, r1 := 1 }
    (fun t => (t.r0, t.flagE, t.flagV)) = some (0x7FFF, true, true) := by decide +kernel
theorem test_S_borrow : after 0x5801 { at100 1 with r1 := 1 }
    (fun t => (t.r0, t.flagE, t.flagV)) = some (0xFFFF, false, false) := by decide +kernel
theorem test_AND_old_E : after 0x6899 { at100 1 with r0 := 0x00FF, r1 := 0x0F0F }
    (fun t => (t.r0, t.str, t.ic)) = some (0x000F, 1, 0x0102) := by decide +kernel
theorem test_OR : after 0x625B { at100 0 with r3 := 0x8001 } (fun t => (t.r2, t.ic))
    = some (0x8001, 0x0102) := by decide +kernel
theorem test_EOR : after 0x6001 { at100 5 with r0 := 0x1234, r1 := 0xFFFF }
    (fun t => (t.r0, t.str, t.ic)) = some (0xEDCB, 5, 0x0101) := by decide +kernel
theorem test_C_equal : after 0x5049 { at100 0 with r0 := 0x1234, r1 := 0x1234 }
    (fun t => (t.r0, t.flagE, t.flagV, t.ic)) = some (0x1234, true, false, 0x0102) := by
  decide +kernel
theorem test_CB_lower_bytes : after 0x52F3 { at100 0 with r2 := 0xAA10, r3 := 0x0020 }
    (fun t => (t.r2, t.flagE, t.flagV, t.ic)) = some (0xAA10, false, false, 0x0102) := by
  decide +kernel
theorem test_CB_overflow : after 0x5001 { at100 0 with r0 := 0x0080, r1 := 1 }
    (fun t => (t.flagE, t.flagV)) = some (true, true) := by decide +kernel
theorem test_MV_to_STR : after 0x7E08 { at100 0 with r0 := 0x12A5 } State.str = some 0x12A5 := by
  decide +kernel
theorem test_MV_at_the_top : after 0x7818 { at100 0 with ic := 0xFFFF } State.ic = some 0x0001 := by
  decide +kernel
theorem test_MVB : after 0x7940 { at100 0 with r1 := 0x12FF, r0 := 0xAB00 }
    (fun t => (t.r1, t.ic)) = some (0x1200, 0x0102) := by decide +kernel
theorem test_BSWP : after 0x7008 { at100 0 with r0 := 0x12AB } State.r0 = some 0xAB12 := by
  decide +kernel
theorem test_DSWP : after 0x7102 { at100 0 with r2 := 0x1234 } (fun t => (t.r1, t.r2))
    = some (0x1324, 0x1234) := by decide +kernel
theorem test_LAD_ripple : after 0x6801 { at100 0 with r0 := 0x67FF, r1 := 1 }
    (fun t => (t.r0, t.flagE, t.flagV)) = some (0x0066, false, false) := by decide +kernel
theorem test_LAD_all_digits : after 0x6801 { at100 0 with r0 := 0x9999, r1 := 0x9999 }
    (fun t => (t.r0, t.flagE, t.flagV)) = some (0x6666, true, true) := by decide +kernel
theorem test_SL_rotate : after 0x200C { at100 5 with r0 := 0x8001 }
    (fun t => (t.r0, t.flagE, t.flagV)) = some (0x0003, true, true) := by decide +kernel
theorem test_SL_negated_E : after 0x200F { at100 1 with r0 := 0x7FFF }
    (fun t => (t.r0, t.flagE)) = some (0xFFFE, false) := by decide +kernel
theorem test_SR_set_E : after 0x210A { at100 0 with r1 := 0x0003 }
    (fun t => (t.r1, t.flagE)) = some (0x8001, true) := by decide +kernel
theorem test_SR_negated_E : after 0x200B { at100 1 with r0 := 0x0002 }
    (fun t => (t.r0, t.flagE)) = some (0x0001, false) := by decide +kernel
theorem test_SBIT : after 0x380F (at100 0) State.r0 = some 0x8000 := by decide +kernel
theorem test_SBIT_of_STR : after 0x3E05 (settled (at100 1)) State.str = some 0x0021 := by
  decide +kernel
theorem test_RBIT : after 0x3140 { at100 0 with r1 := 1 } (fun t => (t.r1, t.ic))
    = some (0, 0x0102) := by decide +kernel
theorem test_TBIT : after 0x2A53 { at100 0 with r2 := 8 } (fun t => (t.r2, t.ic))
    = some (8, 0x0102) := by decide +kernel
theorem test_AI_overflow : after 0x4801 { at100 0 with r0 := 0x7FFF }
    (fun t => (t.r0, t.flagE, t.flagV)) = some (0x8000, false, true) := by decide +kernel
theorem test_SI : after 0x4051 { at100 0 with r0 := 1 } (fun t => (t.r0, t.flagE, t.ic))
    = some (0, true, 0x0101) := by decide +kernel
theorem test_MVI_upper_byte : after 0x08FF { at100 0 with r0 := 0x1234 } State.r0
    = some 0x00FF := by decide +kernel
theorem test_RD : after 0x1810 { at100 0 with ioAnswers := [0x00A5] } (fun t => (t.r0, t.ioLog))
    = some (0x00A5, [.read 0x10 0x00A5]) := by decide +kernel
theorem test_WT : after 0x1120 { at100 0 with r1 := 0x0041 } State.ioLog
    = some [.write 0x20 0x0041] := by decide +kernel
theorem test_LPSW : after 0x2005 (withWord 2 0x0021 (withWord 3 0x0456 (at100 0)))
    (fun t => (t.str, t.ic)) = some (0x0021, 0x0456) := by decide +kernel
theorem test_LPSW_3 : after 0x2007 (at100 0) (fun t => (t.run, t.ic))
    = some (.halted .undefinedInstruction, 0x0101) := by decide +kernel
theorem test_H : after 0x2000 { at100 0 with ic := 0x0300 } (fun t => (t.run, t.ic))
    = some (.halted .hInstruction, 0x0301) := by decide +kernel
theorem test_undefined : after 0x2010 (at100 0) (fun t => (t.run, t.ic))
    = some (.halted .undefinedInstruction, 0x0101) := by decide +kernel
theorem test_PUSH_SP : after 0x2501 (at100 0) (fun t => (readWord t.mem 0x0FFF, t.sp))
    = some (0x0FFF, 0x0FFE) := by decide +kernel
theorem test_PUSH_wraps : after 0x2001 { at100 0 with sp := 0, r0 := 0x0055 }
    (fun t => (readWord t.mem 0, t.sp)) = some (0x0055, 0xFFFF) := by decide +kernel
theorem test_POP_wraps : after 0x2002 (withWord 0 0x0077 { at100 0 with sp := 0xFFFF })
    (fun t => (t.r0, t.sp)) = some (0x0077, 0) := by decide +kernel
theorem test_POP_STR : after 0x2602 (withWord 0x0FFF 0x12E5 { at100 0 with sp := 0x0FFE })
    State.str = some 0x12E5 := by decide +kernel

/-- IRQ1 asserted at a running boundary, M1 = 1, and the slots of level 1 (R237, CFG0). -/
def requested : State :=
  settled (withWord 0x0102 0x0080 (withWord 0x0103 0x0700
    { at100 0x0041 with pins := { Pins.quiet with irq1 := true } }))

theorem test_interrupt_entry : field (step requested)
    (fun t => (t.str, t.ic, readWord t.mem 2, readWord t.mem 3))
      = some (0x0080, 0x0700, 0x0041, 0x0100) := by decide +kernel
theorem test_masked_request : field (step { requested with str := 0x00A1 }) State.run
    = some (.halted .undefinedInstruction) := by decide +kernel
theorem test_STRT : field (step { at100 0 with
      run := .halted .hInstruction, pins := { Pins.quiet with strt := true } })
    (fun t => (t.run, t.ic)) = some (.running, 0x0100) := by decide +kernel
theorem test_halted_ignores_requests :
    field (step { requested with run := .halted .hInstruction }) (fun t => (t.run, t.ic))
      = some (.halted .hInstruction, 0x0100) := by decide +kernel
theorem test_RST : field (step { at100 0x0041 with
      pins := { Pins.quiet with rst := true }, run := .halted .hInstruction })
    (fun t => (t.run, t.ic, t.str)) = some (.running, referenceResetIc, referenceResetStr) := by
  decide +kernel

/-! ### Witnesses for the statements -/

theorem witness_DecodeOfEncode :
    (Instr.l .sp ⟨.indirectX1, 0xFF⟩).wellFormed = true ∧ Instr.ret.wellFormed = true := by decide
theorem witness_EncodeOfDecode :
    decode 0xFFFF = .instr (.b ⟨.indirectX1, 0xFF⟩) ∧
      decode 0x0800 = .instr (.mvi .r0 0) := by decide
/-- Each clause of the statement at the bounds of its range. -/
theorem witness_UndefinedWordsOfTheEncoding :
    decode 0x07FF = .undefined .opcodeZero ∧ decode 0x0800 = .instr (.mvi .r0 0) ∧
      decode 0x7F08 = .undefined .registerSeven ∧ decode 0x500F = .undefined .registerSeven ∧
      decode 0x7E0F = .undefined .registerSeven ∧ decode 0x2008 = .instr (.sr .r0 .keep .never) ∧
      decode 0x26F7 = .undefined .strayBits ∧ decode 0x8000 = .instr (.st .r0 ⟨.zeroPage, 0⟩) := by
  decide
/-- H placed at IC: the hypotheses on a running boundary. -/
theorem witness_StepRunsDecodedInstruction : ∃ s : State,
    (samplePins s).pins.rst = false ∧ (samplePins s).run = .running ∧
      pendingInterrupt (samplePins s) = none ∧ (samplePins s).cfg.encoding = .cfg0 ∧
      kindAt (samplePins s).map (samplePins s).ic ≠ .absent ∧
      decode (readWord (samplePins s).mem (samplePins s).ic) = .instr .h :=
  ⟨(at100 0).withFetchWord 16 0x2000, by decide +kernel⟩
theorem witness_UndefinedWordActsAsH :
    (samplePins State.reset).pins.rst = false ∧ (samplePins State.reset).run = .running ∧
      pendingInterrupt (samplePins State.reset) = none ∧
      (samplePins State.reset).cfg.encoding = .cfg0 ∧
      kindAt (samplePins State.reset).map (samplePins State.reset).ic ≠ .absent ∧
      decode (readWord (samplePins State.reset).mem (samplePins State.reset).ic) =
        .undefined .opcodeZero := by decide +kernel
theorem witness_PlacedInstructionRuns :
    Memory.wf State.reset.mem = true ∧ decode 0x2003 = .instr .ret := by decide
/-- A halted processor with a request asserted. -/
def haltedState : State := { requested with run := .halted .hInstruction }
theorem witness_HaltedStateUnchanged :
    haltedState.run = .halted .hInstruction ∧ (samplePins haltedState).pins.strt = false ∧
      (samplePins haltedState).pins.rst = false := by decide
/-- Halted, and the step after STRT. -/
theorem witness_HaltEndsOnlyByStrtOrReset : ∃ s t : State,
    s.run = .halted .hInstruction ∧ step s = .next t ∧ t.run = .running ∧
      (samplePins s).pins.rst = false :=
  ⟨{ at100 0 with run := .halted .hInstruction, pins := { Pins.quiet with strt := true } }, _,
    rfl, rfl, rfl, rfl⟩
theorem witness_StrtResumesAtIc : ∃ s : State,
    s.run = .halted .awaitingStart ∧ (samplePins s).pins.rst = false ∧
      (samplePins s).pins.strt = true :=
  ⟨{ at100 0 with run := .halted .awaitingStart, pins := { Pins.quiet with strt := true } },
    by decide⟩
/-- RST by the host's schedule, under both settings of R261. -/
theorem witness_ResetMove : ∃ s : State, (samplePins s).pins.rst = true ∧
    (s.cfg.resetStart = .untilStrt ∧
      (samplePins { s with cfg := cfg0 }).pins.rst = true ∧ cfg0.resetStart = .running) :=
  ⟨{ at100 0 with
      schedule := [{ Pins.quiet with rst := true }], cfg := { cfg0 with resetStart := .untilStrt } },
    by decide⟩
theorem witness_StepKeepsInvariant : StateInvariant (at100 0xFFE5) ∧
    ∃ t, step (at100 0xFFE5) = .next t :=
  ⟨by unfold StateInvariant; decide, _, rfl⟩
theorem witness_StepKeepsParameters : ∃ t, step (at100 0) = .next t := ⟨_, rfl⟩
/-- Each clause: an instruction that stores nothing, and a step that stores (PUSH R1 at 0x0100). -/
theorem witness_OnlyStoresChangeMemory :
    ((∃ t, exec (.pop .str) (at100 0) = .next t) ∧ writesMemory (.pop .str) = false) ∧
      ∃ s t : State, step s = .next t ∧ ¬ SameMemory s t :=
  ⟨⟨⟨_, rfl⟩, rfl⟩, { withWord 0x0100 0x2101 (at100 0) with r1 := 1 }, _, rfl,
    fun h => absurd (h 0x1FFE) (by decide +kernel)⟩
theorem witness_OnlyRdAndWtReachIo :
    (∃ t, exec (.push .r0) (at100 0) = .next t) ∧
      (∀ r p, Instr.push .r0 ≠ .rd r p) ∧ ∀ r p, Instr.push .r0 ≠ .wt r p :=
  ⟨⟨_, rfl⟩, by simp, by simp⟩
theorem witness_MasksAndKeyKept :
    (∃ t, exec (.sl .r0 .ce .skp) (at100 0xFFE5) = .next t) ∧
      destinationOf (.sl .r0 .ce .skp) ≠ some .str ∧ ∀ l, Instr.sl .r0 .ce .skp ≠ .lpsw l :=
  ⟨⟨_, rfl⟩, by decide, by simp⟩
/-- Each clause: an instruction that writes neither flag, and SR. -/
theorem witness_FlagsKept :
    ((∃ t, exec (.and .r0 .r1 .enz) (at100 5) = .next t) ∧
      destinationOf (.and .r0 .r1 .enz) ≠ some .str ∧
      (∀ l, Instr.and .r0 .r1 .enz ≠ .lpsw l) ∧ writesFlags (.and .r0 .r1 .enz) = false) ∧
    (∃ t, exec (.sr .sp .se .never) (at100 5) = .next t) ∧
      destinationOf (.sr .sp .se .never) ≠ some .str ∧
      ∀ l, Instr.sr .sp .se .never ≠ .lpsw l :=
  ⟨⟨⟨_, rfl⟩, by decide, by simp, rfl⟩, ⟨_, rfl⟩, by decide, by simp⟩
theorem witness_UnusedBitsIgnoreWrites :
    (∃ t, exec (.mvi .str 0xFF) (at100 0) = .next t) ∧ (at100 0).cfg.strUnused ≠ .storage :=
  ⟨⟨_, rfl⟩, by decide⟩
theorem witness_SpecifiedInstructionsDrawNothing : ∃ s t : State,
    exec (.rd .r0 0x10) s = .next t ∧ isSpecified s.cfg (.rd .r0 0x10) = true ∧
      s.cfg.strUnused ≠ .any ∧ (∀ a, kindAt s.map a ≠ .absent) ∧ s.ioAnswers ≠ [] :=
  ⟨{ settled (at100 0) with ioAnswers := [0x00A5] }, _, rfl, rfl, by decide,
    fun _ => by simp [settled, at100, State.reset, kindAt], by decide⟩
/-- The step that runs H. -/
theorem witness_EndedAtHOnlyByH : ∃ s t : State,
    step s = .next t ∧ ¬ EndedAtH s ∧ EndedAtH t := by
  refine ⟨{ at100 0 with mem := [(0x201, 0x20)] }, _, rfl, ?_, ?_⟩ <;> unfold EndedAtH <;> decide
/-- Modes 2, 6, 7 at both ends of the zero page, mode 3 across address 0, all present. -/
theorem witness_EffectiveAddressOfModes :
    kindAt (at100 0).map ((0x00 : Byte).zeroExtend 16) ≠ .absent ∧
      kindAt (at100 0).map ((0xFF : Byte).zeroExtend 16) ≠ .absent ∧
      kindAt [⟨0x0100, 0xFFFF, .absent⟩] ((0xFF : Byte).zeroExtend 16) ≠ .absent ∧
      ∃ a : Word, a = (0x0010 : Word) + 0 + (0x80 : Byte).signExtend 16 ∧ a = 0xFF90 ∧
        kindAt (at100 0).map a ≠ .absent := by
  refine ⟨by decide, by decide, by decide, _, rfl, by decide, by decide⟩
/-- The sign conditions at their boundary values. -/
theorem witness_SkipConditionsOfTheResult :
    conditionHolds .m (0x8000 : Word) false false .eq = true ∧
      conditionHolds .m (0x7FFF : Word) false false .eq = false ∧
      conditionHolds .p (0x0001 : Word) false false .eq = true ∧
      conditionHolds .p (0x0000 : Word) false false .eq = false ∧
      conditionHolds .mz (0x80 : Byte) false false .eq = true := by decide
/-- Equal values, and values that compare unlike as signed and as unsigned numbers. -/
theorem witness_MagnitudeConditionsCompare :
    (∃ mag, mag = magnitude .unsigned ((5 : Word) - 5) (sub (5 : Word) 5).carry
        (sub (5 : Word) 5).ovf ∧ mag = .eq) ∧
      (∃ mag, mag = magnitude .unsigned ((0x8000 : Word) - 1) (sub (0x8000 : Word) 1).carry
        (sub (0x8000 : Word) 1).ovf ∧ mag = .gt) ∧
      ∃ mag, mag = magnitude .signed ((0x8000 : Word) - 1) (sub (0x8000 : Word) 1).carry
        (sub (0x8000 : Word) 1).ovf ∧ mag = .lt :=
  ⟨⟨_, rfl, by decide⟩, ⟨_, rfl, by decide⟩, ⟨_, rfl, by decide⟩⟩
/-- The state with one stack discipline. -/
def stacked (d : StackDiscipline) (sp : Word) : State :=
  { at100 0 with sp := sp, cfg := { cfg0 with stack := d } }
/-- Each discipline, SP at the end where it wraps. -/
theorem witness_StackDisciplines :
    (stacked .pushPostDec 0).cfg.stack = .pushPostDec ∧ pushedSp (stacked .pushPostDec 0) = 0xFFFF ∧
      (stacked .pushPreDec 0).cfg.stack = .pushPreDec ∧
        pushAddress (stacked .pushPreDec 0) = 0xFFFF ∧
      (stacked .pushPostInc 0xFFFF).cfg.stack = .pushPostInc ∧
        pushedSp (stacked .pushPostInc 0xFFFF) = 0 ∧
      (stacked .pushPreInc 0xFFFF).cfg.stack = .pushPreInc ∧
        pushAddress (stacked .pushPreInc 0xFFFF) = 0 ∧
      Memory.wf (stacked .pushPreInc 0xFFFF).mem = true ∧
      kindAt (stacked .pushPreInc 0xFFFF).map (pushAddress (stacked .pushPreInc 0xFFFF)) = .ram := by
  decide
theorem witness_PushThenPopRestores : Reg.str ≠ .sp ∧ Memory.wf (at100 0x00E5).mem = true ∧
    kindAt (at100 0x00E5).map (pushAddress (at100 0x00E5)) = .ram := by decide
theorem witness_CallThenReturn : Memory.wf (at100 0).mem = true ∧
    kindAt (at100 0).map (pushAddress (at100 0)) = .ram := by decide
theorem witness_InterruptPriority : pendingInterrupt requested = some .level1 ∧
    pendingInterrupt { requested with str := 0x00A1 } = none ∧
    Pins.request { Pins.quiet with irq2 := true } .level2 = true := by decide
/-- Both orders of a PSW slot, the second slot right behind the first. -/
theorem witness_InterruptEntry :
    ∃ s t : State, s.cfg.pswOrder = .strFirst ∧ t.cfg.pswOrder = .icFirst ∧ ∀ x ∈ [s, t],
      (samplePins x).pins.rst = false ∧ (samplePins x).run = .running ∧
        pendingInterrupt (samplePins x) = some .level1 ∧ Memory.wf (samplePins x).mem = true ∧
        levelAddress (samplePins x).cfg.opsw .level1 = 2 ∧
        levelAddress (samplePins x).cfg.npsw .level1 = 4 ∧
        kindAt (samplePins x).map 2 = .ram ∧ kindAt (samplePins x).map 3 = .ram ∧
        kindAt (samplePins x).map 4 ≠ .absent ∧ kindAt (samplePins x).map 5 ≠ .absent :=
  ⟨{ requested with cfg := { cfg0 with npsw := ⟨2, 4, 6⟩ } },
    { requested with cfg := { cfg0 with npsw := ⟨2, 4, 6⟩, pswOrder := .icFirst } }, rfl, rfl,
    by decide +kernel⟩
/-- Level 2 at the highest slot address, whose second word wraps to address 0. -/
theorem witness_InterruptReturn : ∃ s u : State, ∃ a : Word, Memory.wf s.mem = true ∧
    levelOfI2 2 = some .level2 ∧ a = levelAddress s.cfg.opsw .level2 ∧ a = 0xFFFF ∧
    kindAt s.map a = .ram ∧ kindAt s.map (a + 1) = .ram ∧ u = takeInterrupt .level2 s ∧
    u.cfg = (takeInterrupt .level2 s).cfg ∧ u.map = (takeInterrupt .level2 s).map :=
  ⟨{ requested with cfg := { cfg0 with opsw := ⟨0, 2, 0xFFFF⟩ } }, _, _, by decide +kernel,
    rfl, rfl, rfl, rfl, rfl, rfl, rfl, rfl⟩
theorem witness_LoadResult : Reg.sp ≠ .str ∧
    (0x0010 : Word) = (effectiveAddress ⟨.indexX1, 0x20⟩ { at100 0 with r4 := 0xFFF0 }).value := by
  decide
/-- The state with ROM at one address. -/
def readOnly (a : Word) (s : State) : State :=
  { s with map := [{ first := a, last := a, kind := .rom }] }
/-- RAM at the highest address, and ROM. -/
theorem witness_StoreResult : Reg.r0 ≠ .str ∧ Memory.wf (at100 0).mem = true ∧
    (0xFFFF : Word) = (effectiveAddress ⟨.indexX1, 0x0F⟩ { at100 0 with r4 := 0xFFF0 }).value ∧
    ∃ s : State, Memory.wf s.mem = true ∧
      (0x0010 : Word) = (effectiveAddress ⟨.zeroPage, 0x10⟩ s).value ∧ kindAt s.map 0x0010 = .rom :=
  ⟨by decide, by decide, by decide, readOnly 0x0010 (at100 0), by decide⟩
theorem witness_CountMemoryResult : Memory.wf (withWord 0x00FF 1 (at100 0)).mem = true ∧
    (0x00FF : Word) = (effectiveAddress ⟨.zeroPage, 0xFF⟩ (withWord 0x00FF 1 (at100 0))).value ∧
    kindAt (readOnly 0x00FF (withWord 0x00FF 1 (at100 0))).map 0x00FF = .rom := by
  decide +kernel
theorem witness_CallResult : Memory.wf (at100 0).mem = true ∧
    (0x0FFF : Word) = pushAddress (at100 0) ∧
    (0x0FFF : Word) = pushAddress (readOnly 0x0FFF (at100 0)) ∧
    kindAt (readOnly 0x0FFF (at100 0)).map 0x0FFF = .rom := by decide
theorem witness_AddResult : Reg.sp ≠ .str := by decide
theorem witness_SubtractResult : Reg.sp ≠ .str := by decide
/-- Both settings of P_FLAGS_CMP. -/
theorem witness_CompareResult : (at100 0).cfg.flagsCmp = .update ∧
    ({ at100 0 with cfg := { cfg0 with flagsCmp := .keep } } : State).cfg.flagsCmp = .keep := by
  decide
theorem witness_NopIdiom : ∃ rn : Reg, rn = .str ∧ Reg.r0 ≠ rn := ⟨_, rfl, by decide⟩
/-- Both settings of P_FLAGS_LAD, with a register that is not STR. -/
theorem witness_LadResult : Reg.r0 ≠ .str ∧ (at100 0).cfg.flagsLad = .update ∧
    ({ at100 0 with cfg := { cfg0 with flagsLad := .keep } } : State).cfg.flagsLad = .keep := by
  decide
/-- A digit that carries and one that does not, at both ends; a decimal carry rippling up. -/
theorem witness_LadPatternDigits :
    (∃ v : Word, v = ladResult .pattern 0xF00F 0x1001 ∧
      digit v 0 = 6 ∧ digit v 1 = 0 ∧ digit v 3 = 6) ∧
    ∃ w : Word, w = ladResult .patternDecimal 0x0998 0x0002 ∧ w = 0x0666 :=
  ⟨⟨_, rfl, by decide, by decide, by decide⟩, _, rfl, by decide⟩
/-- 9999 + 1, and the example of R185. -/
theorem witness_DecimalAdditionWithLad :
    (∀ i, i < 4 → digit 0x9999 i ≤ 9) ∧ (∀ i, i < 4 → digit 0x0001 i ≤ 9) ∧
      ∃ t k r : Word, t = 0x0199 + 0x6666 ∧ k = ladResult .pattern t 0x0001 ∧
        r = t + 0x0001 - (0x6666 - k) ∧ r = 0x0200 :=
  ⟨by decide, by decide, _, _, _, rfl, rfl, rfl, by decide⟩
theorem witness_ShiftResult : Reg.r0 ≠ .str ∧ ∃ u : State, u = applyEm .ce (at100 1) :=
  ⟨by decide, _, rfl⟩
/-- Both settings of P_FLAGS_IMM, the largest immediate. -/
theorem witness_ImmediateArithmeticResult : (0x000F : Word) = (0xF : BitVec 4).zeroExtend 16 ∧
    Reg.r0 ≠ .str ∧ (at100 0).cfg.flagsImm = .update ∧
    ({ at100 0 with cfg := { cfg0 with flagsImm := .keep } } : State).cfg.flagsImm = .keep := by
  decide
/-- The highest level that has a slot, in both orders of its words. -/
theorem witness_LpswResult : (2 : BitVec 2) ≠ 3 ∧ (0 : BitVec 2) ≠ 3 ∧
    (at100 0).cfg.pswOrder = .strFirst ∧
    ({ at100 0 with cfg := { cfg0 with pswOrder := .icFirst } } : State).cfg.pswOrder = .icFirst ∧
    (0x0004 : Word) = (at100 0).cfg.opsw.level2 := by decide
/-- Both settings of P_HALT_RESUME. -/
theorem witness_HaltResult : (at100 0).cfg.haltResume = .next ∧
    ({ at100 0 with cfg := { cfg0 with haltResume := .same } } : State).cfg.haltResume = .same := by
  decide
theorem witness_StackResult : Memory.wf (at100 0).mem = true ∧
    (0x0FFF : Word) = pushAddress (at100 0) ∧ Reg.str ≠ .sp ∧
    kindAt (readOnly 0x0FFF (at100 0)).map 0x0FFF = .rom := by decide
theorem witness_DecodedRegistersAllowed :
    decodeWord .cfg0 0xCD00 = some (.l .sp ⟨.relative, 0⟩) ∧
      decodeWord .cfg0 0x8500 = some (.st .sp ⟨.zeroPage, 0⟩) := by decide
/-- Both orders, both ends of a word. -/
theorem witness_BitNumbering : bitMask .lsb0 15 = 0x8000 ∧ bitMask .msb0 15 = 0x0001 ∧
    (at100 1).cfg.bitOrder = .lsb0 ∧ (at100 1).flagE = true ∧
    ({ at100 0x2000 with cfg := { cfg0 with bitOrder := .msb0 } } : State).cfg.bitOrder = .msb0 ∧
    ({ at100 0x2000 with cfg := { cfg0 with bitOrder := .msb0 } } : State).flagV = true := by decide

end Sys2Proof.Tests
end

section
/-!
SUPPORT. Instruction boundaries: what reading the pins leaves unchanged, what a boundary does when the
processor is halted and when it fetches, and the state a placed instruction is run from.
-/

namespace Sys2Proof.Machine

/-! ### Reading the pins -/

/-- Reading the pins changes the levels and the host's list alone (R29). -/
theorem samplePins_eq (s : State) :
    samplePins s = { s with pins := (samplePins s).pins, schedule := s.schedule.tail } := by
  unfold samplePins
  cases h : s.schedule with
  | nil =>
    show s = { s with pins := s.pins, schedule := [] }
    rw [← h]
  | cons p rest => rfl

@[simp] theorem samplePins_run (s : State) : (samplePins s).run = s.run := by rw [samplePins_eq]
@[simp] theorem samplePins_ic (s : State) : (samplePins s).ic = s.ic := by rw [samplePins_eq]
@[simp] theorem samplePins_mem (s : State) : (samplePins s).mem = s.mem := by rw [samplePins_eq]
@[simp] theorem samplePins_map (s : State) : (samplePins s).map = s.map := by rw [samplePins_eq]
@[simp] theorem samplePins_cfg (s : State) : (samplePins s).cfg = s.cfg := by rw [samplePins_eq]
@[simp] theorem samplePins_reg (s : State) (r : Reg) : (samplePins s).reg r = s.reg r := by
  rw [samplePins_eq]; cases r <;> rfl

theorem samplePins_sameIo (s : State) : SameIo s (samplePins s) := by
  rw [samplePins_eq]; exact ⟨rfl, rfl⟩

/-- No memory word, I/O location, register or IC changes when the pins are read. -/
theorem samplePins_keeps (s : State) :
    SameMemory s (samplePins s) ∧ SameIo s (samplePins s) ∧ (samplePins s).ic = s.ic ∧
      ∀ r, (samplePins s).reg r = s.reg r :=
  ⟨sameMemory_of_eq (samplePins_mem s), samplePins_sameIo s, samplePins_ic s, samplePins_reg s⟩

/-! ### Boundaries -/

theorem boundary_halted {u : State} {cause : HaltCause} (hrst : u.pins.rst = false)
    (hrun : u.run = .halted cause) :
    boundary u = .next (if u.pins.strt then leaveHalt u else u) := by
  simp [boundary, hrst, hrun]

theorem boundary_running {u : State} (hrst : u.pins.rst = false) (hrun : u.run = .running)
    (hirq : pendingInterrupt u = none) : boundary u = runInstruction u := by
  simp [boundary, hrst, hrun, hirq]

/-- A halted processor without RST: STRT ends the halt, and otherwise only the pins are read anew (R28,
R232, R242). -/
theorem step_halted {s : State} {cause : HaltCause} (hrun : s.run = .halted cause)
    (hrst : (samplePins s).pins.rst = false) :
    step s = .next (if (samplePins s).pins.strt then leaveHalt (samplePins s) else samplePins s) :=
  boundary_halted hrst ((samplePins_run s).trans hrun)

theorem runInstruction_decoded {u : State} {i : Instr} (henc : u.cfg.encoding = .cfg0)
    (hpresent : kindAt u.map u.ic ≠ .absent) (hdec : decode (readWord u.mem u.ic) = .instr i) :
    runInstruction u = exec i u := by
  simp [runInstruction, fetch, memRead_present hpresent, henc, decodeWord, hdec, Decoded.toOption]

/-- Without a request on any level no interrupt is taken (R238). -/
theorem pendingInterrupt_quiet {u : State} (h : u.pins = Pins.quiet) : pendingInterrupt u = none := by
  refine List.find?_eq_none.mpr fun l _ => ?_
  have hreq : u.pins.request l = false := by rw [h]; cases l <;> rfl
  simp [hreq]

/-! ### A placed instruction (log entry 25) -/

theorem withFetchWord_word (s : State) (w : Word) :
    s.withFetchWord 16 w.toNat = placeInstruction s w := by
  unfold State.withFetchWord
  rw [Nat.mod_eq_of_lt w.isLt, BitVec.ofNat_toNat, BitVec.setWidth_eq]

/-- The address fetched from holds memory, whatever the launch map said of it. -/
theorem placeInstruction_present (s : State) (w : Word) :
    kindAt (placeInstruction s w).map s.ic ≠ .absent := by
  unfold placeInstruction
  cases h : kindAt s.map s.ic <;> simp [h, kindAt]

/-- No pin is asserted at the coming boundary, whatever the host had in its list. -/
theorem samplePins_placeInstruction (s : State) (w : Word) :
    (samplePins (placeInstruction s w)).pins = Pins.quiet := by
  unfold samplePins placeInstruction
  cases s.schedule <;> rfl

theorem placeInstruction_reg (s : State) (w : Word) (r : Reg) :
    (placeInstruction s w).reg r = s.reg r := by
  cases r <;> rfl

theorem placeInstruction_fetched {s : State} (h : Memory.wf s.mem = true) (w : Word) :
    readWord (placeInstruction s w).mem s.ic = w :=
  (readWord_writeWord h s.ic).trans (if_pos rfl)

/-! ### The statements -/

/-- Settles O5: at such a boundary nothing goes before the fetch. -/
theorem stepRunsDecodedInstruction : Obligations.StepRunsDecodedInstruction := by
  rintro s u i rfl hrst hrun hirq henc hpresent hdec
  refine ⟨?_, samplePins_pinsRead s⟩
  calc step s = boundary (samplePins s) := rfl
    _ = runInstruction (samplePins s) := boundary_running hrst hrun hirq
    _ = exec i (samplePins s) := runInstruction_decoded henc hpresent hdec

/-- Settles O7: the boundary after the load meets the premises of O5. -/
theorem placedInstructionRuns : Obligations.PlacedInstructionRuns := by
  intro s w i hwf hdec
  rw [withFetchWord_word]
  have hquiet := samplePins_placeInstruction s w
  have hstep : step (placeInstruction s w) = exec i (samplePins (placeInstruction s w)) := by
    refine (stepRunsDecodedInstruction _ _ i rfl ?_ ?_ (pendingInterrupt_quiet hquiet) ?_ ?_ ?_).1
    · rw [hquiet]; rfl
    · exact samplePins_run _
    · rw [samplePins_cfg]; rfl
    · rw [samplePins_map, samplePins_ic]; exact placeInstruction_present s w
    · rw [samplePins_mem, samplePins_ic]
      exact (congrArg decode (placeInstruction_fetched hwf w)).trans hdec
  exact ⟨_, rfl, hstep, fun r => (samplePins_reg _ r).trans (placeInstruction_reg s w r)⟩

/-- Settles O8. -/
theorem haltedStateUnchanged : Obligations.HaltedStateUnchanged := by
  rintro s u cause rfl hrun hstrt hrst
  obtain ⟨hmem, hio, hic, hreg⟩ := samplePins_keeps s
  refine ⟨?_, hmem, hio, hic, samplePins_run s, hreg⟩
  rw [step_halted hrun hrst, hstrt]
  rfl

/-- Settles O9: without RST, a halted processor leaves the halt for STRT or only reads its pins. -/
theorem haltEndsOnlyByStrtOrReset : Obligations.HaltEndsOnlyByStrtOrReset := by
  intro s t cause hrun hstep
  cases hrst : (samplePins s).pins.rst with
  | true => exact ⟨fun _ => .inr rfl, fun h => absurd h (by simp)⟩
  | false =>
    obtain rfl := Host.Outcome.next.inj ((step_halted hrun hrst).symm.trans hstep)
    cases (samplePins s).pins.strt with
    | true => exact ⟨fun _ => .inl rfl, fun _ => samplePins_keeps s⟩
    | false =>
      refine ⟨fun h => ?_, fun _ => samplePins_keeps s⟩
      have hhalted : (samplePins s).run = .halted cause := (samplePins_run s).trans hrun
      exact absurd (hhalted.symm.trans h) (by simp)

end Sys2Proof.Machine
end

section
/-!
SUPPORT. Which registers a decoded instruction names (R13), and where the numbered bits of a word lie
(R19, R206).
-/

namespace Sys2Proof.Machine

open Sys2Proof.Config

/-! ### Decoded instructions are well-formed -/

/-- The decoder's answer, if it is an instruction, names only registers it may name (R13). -/
def NamesAllowedRegisters (d : Decoded) : Prop := ∀ i, d = .instr i → i.wellFormed = true

theorem namesAllowedRegisters_instr {i : Instr} (h : i.wellFormed = true) :
    NamesAllowedRegisters (.instr i) := by
  rintro _ ⟨⟩; exact h

theorem namesAllowedRegisters_undefined (why : Undefined) :
    NamesAllowedRegisters (.undefined why) := by
  rintro _ ⟨⟩

theorem withRegister_namesAllowed {k : BitVec 3} {f : Reg → Decoded}
    (h : ∀ r, NamesAllowedRegisters (f r)) : NamesAllowedRegisters (withRegister k f) := by
  unfold withRegister
  cases Reg.ofCode k with
  | none => exact namesAllowedRegisters_undefined _
  | some r => exact h r

/-- Register code 6, which is STR elsewhere, selects IMS or DMS in format M (R101). -/
theorem decodeM_namesAllowed (w : Word) : NamesAllowedRegisters (decodeM w) := by
  unfold decodeM
  cases Reg.ofCode (w.extractLsb' 8 3) with
  | none => cases w.getLsbD 14 <;> exact namesAllowedRegisters_instr rfl
  | some r => cases r <;> cases w.getLsbD 14 <;> exact namesAllowedRegisters_instr rfl

theorem decodeRR_namesAllowed (w : Word) {sub0 sub1 : Reg → Reg → Cond → Instr}
    (h0 : ∀ rd rs c, (sub0 rd rs c).wellFormed = true)
    (h1 : ∀ rd rs c, (sub1 rd rs c).wellFormed = true) :
    NamesAllowedRegisters (decodeRR w sub0 sub1) := by
  refine withRegister_namesAllowed fun rd => withRegister_namesAllowed fun rs => ?_
  refine namesAllowedRegisters_instr ?_
  cases w.getLsbD 3
  · exact h0 rd rs _
  · exact h1 rd rs _

theorem decodeSH_namesAllowed (w : Word) : NamesAllowedRegisters (decodeSH w) := by
  refine withRegister_namesAllowed fun rn => namesAllowedRegisters_instr ?_
  cases w.getLsbD 2 <;> rfl

theorem decodeBI_namesAllowed (w : Word) {f : Reg → BitVec 4 → Cond → Instr}
    (h : ∀ rn i4 c, (f rn i4 c).wellFormed = true) : NamesAllowedRegisters (decodeBI w f) :=
  withRegister_namesAllowed fun rn => namesAllowedRegisters_instr (h rn _ _)

theorem decodeI8_namesAllowed (w : Word) {f : Reg → Byte → Instr}
    (h : ∀ rn i8, (f rn i8).wellFormed = true) : NamesAllowedRegisters (decodeI8 w f) :=
  withRegister_namesAllowed fun rn => namesAllowedRegisters_instr (h rn _)

theorem decodeZ_namesAllowed (w : Word) : NamesAllowedRegisters (decodeZ w) := by
  refine withRegister_namesAllowed fun rn => ?_
  split
  · exact namesAllowedRegisters_undefined _
  · split
    case h_2 | h_3 => exact namesAllowedRegisters_instr rfl
    all_goals
      split
      · exact namesAllowedRegisters_instr rfl
      · exact namesAllowedRegisters_undefined _

theorem decode_namesAllowed (w : Word) : NamesAllowedRegisters (decode w) := by
  unfold decode
  split
  case h_1 => exact namesAllowedRegisters_undefined _
  case h_2 | h_3 | h_4 => exact decodeI8_namesAllowed w fun _ _ => rfl
  case h_5 =>
    split
    · exact decodeSH_namesAllowed w
    · exact decodeZ_namesAllowed w
  case h_17 => exact decodeM_namesAllowed w
  case h_6 | h_7 | h_8 | h_9 | h_10 => exact decodeBI_namesAllowed w fun _ _ _ => rfl
  all_goals exact decodeRR_namesAllowed w (fun _ _ _ => rfl) fun _ _ _ => rfl

theorem decodeWord_wellFormed {e : Encoding} {w : Word} {i : Instr} (h : decodeWord e w = some i) :
    i.wellFormed = true := by
  cases e with
  | cfg0 =>
    refine decode_namesAllowed w i ?_
    cases hd : decode w with
    | instr j => simpa [decodeWord, hd, Decoded.toOption] using h
    | undefined why => simp [decodeWord, hd, Decoded.toOption] at h
  | other => exact (Option.filter_eq_some_iff.mp h).2

/-- Settles O59: L and ST of STR are the instructions that are not well-formed. -/
theorem decodedRegistersAllowed : Obligations.DecodedRegistersAllowed := by
  intro e w i h
  have hwf := decodeWord_wellFormed h
  refine ⟨hwf, fun ea => ⟨?_, ?_⟩⟩ <;>
    · rintro rfl
      exact absurd hwf (by simp [Instr.wellFormed, Reg.memoryOperand])

/-! ### The numbering of bits -/

theorem strBit_eq_wordBit (s : State) (n : Nat) : s.strBit n = wordBit s s.str n := rfl

theorem wordBit_lsb0 {s : State} (h : s.cfg.bitOrder = .lsb0) (v : Word) (n : Nat) :
    wordBit s v n = v.getLsbD n := by
  simp only [wordBit, h, bitPosition]

theorem wordBit_msb0 {s : State} (h : s.cfg.bitOrder = .msb0) (v : Word) (n : Nat) :
    wordBit s v n = v.getLsbD (15 - n) := by
  simp only [wordBit, h, bitPosition]

/-- Settles O60: E is bit 0 and V is bit 2, at the position the order gives the number. -/
theorem bitNumbering : Obligations.BitNumbering := by
  refine ⟨fun i4 => ⟨rfl, rfl⟩, fun s v => ⟨fun h => ?_, fun h => ?_⟩⟩
  · simp [strBit_eq_wordBit, wordBit_lsb0 h]
  · simp [strBit_eq_wordBit, wordBit_msb0 h]

end Sys2Proof.Machine
end

section
/-!
SUPPORT. What an instruction can do to one bit of STR (R22 to R27): only the flag writes of its own rule,
a write of STR as its destination, and LPSW reach a bit, and the last two drop the unused bits unless
P_STR_UNUSED is `storage`. The statements on M0 to M2 and Pk, on E and V, and on the unused bits are three
readings of that one fact.
-/

namespace Sys2Proof.Machine

open Sys2Proof.Config

/-! ### One bit of STR kept from one state to another -/

/-- `n` numbers a bit of STR, and from `s` to `t` that bit is as before; so are the parameters, which say
what a later write of STR does to it. -/
structure KeepsStrBit (n : Nat) (s t : State) : Prop where
  isBit : n < 16
  cfg : t.cfg = s.cfg
  bit : t.strBit n = s.strBit n

/-- A write of STR as a register drops bit `n` (R24). -/
def WriteDropped (n : Nat) (s : State) : Prop := n ∈ unusedBits ∧ s.cfg.strUnused ≠ .storage

namespace KeepsStrBit

variable {n : Nat} {s t u : State}

theorem refl (hn : n < 16) (s : State) : KeepsStrBit n s s := ⟨hn, rfl, rfl⟩

/-- An operation that touches neither STR nor the parameters. -/
theorem same (h : KeepsStrBit n s t) (hcfg : u.cfg = t.cfg) (hstr : u.str = t.str) :
    KeepsStrBit n s u := by
  refine ⟨h.isBit, hcfg.trans h.cfg, ?_⟩
  rw [← h.bit, State.strBit, State.strBit, hcfg, hstr]

/-- An operation whose frame leaves the bit out. -/
theorem frame {regs : List Reg} {bits : List Nat} (h : KeepsStrBit n s t) (g : Frame regs bits t u)
    (hstr : Reg.str ∉ regs) (hbit : n ∉ bits) : KeepsStrBit n s u := by
  obtain ⟨-, hbits, ⟨-, hcfg, -, -⟩, -⟩ := g
  exact ⟨h.isBit, hcfg.trans h.cfg, (hbits hstr n h.isBit hbit).trans h.bit⟩

/-- An operation that changes no register. -/
theorem quiet (h : KeepsStrBit n s t) (g : Frame [] [] t u) : KeepsStrBit n s u :=
  h.frame g List.not_mem_nil List.not_mem_nil

theorem drawWord (h : KeepsStrBit n s t) : KeepsStrBit n s (drawWord t).after := h.same rfl rfl

theorem ioWrite (h : KeepsStrBit n s t) (port : Byte) (v : Word) :
    KeepsStrBit n s (ioWrite port v t) := h.same rfl rfl

theorem raiseHalt (h : KeepsStrBit n s t) (cause : HaltCause) :
    KeepsStrBit n s (raiseHalt cause t) := h.same rfl rfl

theorem memRead (h : KeepsStrBit n s t) (a : Word) : KeepsStrBit n s (memRead a t).after :=
  h.quiet (memRead_frame a t)

theorem memWrite (h : KeepsStrBit n s t) (a v : Word) : KeepsStrBit n s (memWrite a v t) :=
  h.quiet (memWrite_frame a v t)

theorem readReg (h : KeepsStrBit n s t) (r : Reg) : KeepsStrBit n s (readReg r t).after :=
  h.quiet (readReg_frame r t)

theorem readPair (h : KeepsStrBit n s t) (rd rs : Reg) : KeepsStrBit n s (readPair rd rs t).after :=
  h.quiet (readPair_frame rd rs t)

theorem effectiveAddress (h : KeepsStrBit n s t) (ea : Ea) :
    KeepsStrBit n s (effectiveAddress ea t).after :=
  h.quiet (effectiveAddress_frame ea t)

theorem setIc (h : KeepsStrBit n s t) (a : Word) : KeepsStrBit n s (t.setIc a) :=
  h.quiet (setIc_frame a t)

theorem advance (h : KeepsStrBit n s t) (skip : Bool) : KeepsStrBit n s (advance skip t) :=
  h.quiet (advance_frame skip t)

theorem finish {w : Nat} (h : KeepsStrBit n s t) (c : Cond) (res : BitVec w) (mag : Magnitude) :
    KeepsStrBit n s (finish c res mag t) :=
  h.quiet (finish_frame c res mag t)

theorem finishFree {w : Nat} (h : KeepsStrBit n s t) (c : Cond) (res : BitVec w) :
    KeepsStrBit n s (finishFree c res t) :=
  h.quiet (finishFree_frame c res t)

theorem push (h : KeepsStrBit n s t) (v : Word) : KeepsStrBit n s (push v t) := by
  obtain ⟨m, hm, -⟩ := push_after v t
  exact h.same (by rw [hm]) (by rw [hm])

theorem pop (h : KeepsStrBit n s t) : KeepsStrBit n s (pop t).after := by
  obtain ⟨⟨k, hk⟩, -⟩ := pop_after t
  exact h.same (by rw [hk]) (by rw [hk])

theorem ioRead (h : KeepsStrBit n s t) (port : Byte) : KeepsStrBit n s (ioRead port t).after := by
  obtain ⟨k, hk⟩ := ioRead_after port t
  exact h.same (by rw [hk]) (by rw [hk])

/-! The writes of STR: of a flag, of the register, of the loaded PSW. -/

theorem applyEm (h : KeepsStrBit n s t) (em : Em) (h0 : n ∉ [0]) : KeepsStrBit n s (applyEm em t) :=
  h.frame (applyEm_frame em t) List.not_mem_nil h0

theorem writeFlags (h : KeepsStrBit n s t) (rd : Reg) (e v : Bool) (h02 : n ∉ [0, 2]) :
    KeepsStrBit n s (writeFlags rd e v t) :=
  h.frame (writeFlags_frame rd e v t) List.not_mem_nil h02

theorem underPolicy (h : KeepsStrBit n s t) (p : FlagPolicy) (rd : Reg) (e v : Bool)
    (h02 : n ∉ [0, 2]) : KeepsStrBit n s (underPolicy p (Machine.writeFlags rd e v) t) :=
  h.frame (underPolicy_frame p rd e v t) List.not_mem_nil h02

theorem compareValues {w : Nat} (h : KeepsStrBit n s t) (x y : BitVec w) (c : Cond)
    (h02 : n ∉ [0, 2]) : KeepsStrBit n s (compareValues x y c t) := by
  obtain ⟨-, -, -, hframe, -, -⟩ := compareValues_does x y c t t.draws _ rfl
  exact h.frame hframe List.not_mem_nil h02

theorem writeStr (h : KeepsStrBit n s t) (v : Word) (hd : WriteDropped n s) :
    KeepsStrBit n s (writeStr v t) := by
  obtain ⟨x, hx⟩ := writeStr_after v t
  refine ⟨h.isBit, by rw [hx]; exact h.cfg, ?_⟩
  have hdropped : n ∈ unusedBits ∧ t.cfg.strUnused ≠ .storage := by rw [h.cfg]; exact hd
  rw [strBit_writeStr v t h.isBit, if_pos hdropped, h.bit]

theorem writeReg (h : KeepsStrBit n s t) (r : Reg) (v : Word) (hd : r = .str → WriteDropped n s) :
    KeepsStrBit n s (writeReg r v t) := by
  by_cases hr : r = .str
  · subst hr; exact h.writeStr v (hd rfl)
  · exact h.frame (writeReg_frame r v t) (by simpa using Ne.symm hr) List.not_mem_nil

/-- SL and SR write E alone, and with STR as their destination V is free too (R26). -/
theorem writeE (h : KeepsStrBit n s t) (rn : Reg) (e : Bool) (h0 : n ∉ [0])
    (hd : rn = .str → WriteDropped n s) : KeepsStrBit n s (writeE rn e t) := by
  by_cases hr : rn = .str
  · have h02 : n ∉ [0, 2] := fun hmem => by
      have hunused := (hd hr).1
      simp only [unusedBits, List.mem_cons, List.not_mem_nil, or_false] at hmem hunused
      omega
    rw [Machine.writeE, if_pos hr]
    exact h.frame (freeFlags_frame t) List.not_mem_nil h02
  · exact h.frame (writeE_frame rn e t) (by simpa using Ne.symm hr) h0

theorem loadPsw (h : KeepsStrBit n s t) (a : Word) (hd : WriteDropped n s) :
    KeepsStrBit n s (loadPsw a t) := by
  have hread := (h.memRead a).memRead (a + 1)
  unfold Machine.loadPsw
  cases t.cfg.pswOrder with
  | strFirst => exact (hread.writeStr _ hd).setIc _
  | icFirst => exact (hread.writeStr _ hd).setIc _

end KeepsStrBit

/-! ### Each instruction -/

/-- The bits of STR that the flag writes of an instruction's own rule reach: E of SL and SR, E and V of
the others that write flags (R27). -/
def flagBits : Instr → List Nat
  | .sl _ _ _ | .sr _ _ _ => [0]
  | i => if writesFlags i then [0, 2] else []

theorem flagBits_of_writesFlags_false {i : Instr} (h : writesFlags i = false) : flagBits i = [] := by
  unfold flagBits
  split
  · simp [writesFlags] at h
  · simp [writesFlags] at h
  · simp [h]

theorem flagBits_subset (i : Instr) : flagBits i ⊆ [0, 2] := by
  unfold flagBits
  split
  · simp
  · simp
  · split <;> simp

/-- An instruction keeps bit `n` of STR if its own rule writes no flag there and, where STR is its
destination or it loads a PSW, the write of STR drops the bit (R22 to R27). -/
theorem exec_keepsStrBit {i : Instr} {s t : State} {n : Nat} (h : exec i s = .next t) (hn : n < 16)
    (hflag : n ∉ flagBits i) (hdest : destinationOf i = some .str → WriteDropped n s)
    (hpsw : ∀ l, i = .lpsw l → WriteDropped n s) : KeepsStrBit n s t := by
  have k := KeepsStrBit.refl hn s
  have hd : ∀ r, destinationOf i = some r → r = .str → WriteDropped n s :=
    fun r hr e => hdest (hr.trans (congrArg some e))
  cases i with
  | l r ea =>
    cases h
    exact (((k.effectiveAddress ea).memRead _).writeReg r _ (hd r rfl)).advance false
  | st r ea =>
    cases h
    exact (((k.effectiveAddress ea).readReg r).memWrite _ _).advance false
  | ims ea | dms ea =>
    cases h
    exact (((k.effectiveAddress ea).memRead _).memWrite _ _).advance _
  | b ea =>
    cases h
    exact (k.effectiveAddress ea).setIc _
  | bal ea =>
    cases h
    exact ((k.effectiveAddress ea).push _).setIc _
  | ret =>
    cases h
    exact k.pop.setIc _
  | a rd rs c | s rd rs c =>
    cases h
    exact (((k.readPair rd rs).writeReg rd _ (hd rd rfl)).writeFlags rd _ _ hflag).finish c _ _
  | and rd rs c | or rd rs c | eor rd rs c | mvb rd rs c =>
    cases h
    exact ((k.readPair rd rs).writeReg rd _ (hd rd rfl)).finishFree c _
  | c rd rs c | cb rd rs c =>
    cases h
    exact (k.readPair rd rs).compareValues _ _ c hflag
  | mv rd rs c | bswp rd rs c | dswp rd rs c =>
    cases h
    exact ((k.readReg rs).writeReg rd _ (hd rd rfl)).finishFree c _
  | lad rd rs c =>
    cases h
    exact (((k.readPair rd rs).writeReg rd _ (hd rd rfl)).underPolicy _ rd _ _ hflag).finish c _ _
  | sl rn em c | sr rn em c =>
    cases h
    exact ((((k.applyEm em hflag).readReg rn).writeReg rn _ (hd rn rfl)).writeE rn _ hflag
      (hd rn rfl)).finishFree c _
  | sbit rn i4 c | rbit rn i4 c =>
    cases h
    exact ((k.readReg rn).writeReg rn _ (hd rn rfl)).finishFree c _
  | tbit rn i4 c =>
    cases h
    exact (k.readReg rn).finishFree c _
  | ai rn i4 c | si rn i4 c =>
    cases h
    exact (((k.readReg rn).writeReg rn _ (hd rn rfl)).underPolicy _ rn _ _ hflag).finish c _ _
  | mvi rn i8 =>
    simp only [exec, execMvi] at h
    split at h <;> cases h
    · exact (k.writeReg rn _ (hd rn rfl)).advance false
    · exact (k.writeReg rn _ (hd rn rfl)).advance false
    · exact ((k.readReg rn).writeReg rn _ (hd rn rfl)).advance false
  | rd rn i8 =>
    cases h
    exact ((k.ioRead i8).writeReg rn _ (hd rn rfl)).advance false
  | wt rn i8 =>
    cases h
    exact ((k.readReg rn).ioWrite i8 _).advance false
  | lpsw i2 =>
    simp only [exec, execLpsw] at h
    split at h <;> cases h
    · exact k.loadPsw _ (hpsw i2 rfl)
    · exact k.raiseHalt _
  | h =>
    cases h
    exact k.raiseHalt _
  | push rn =>
    cases h
    exact ((k.readReg rn).push _).advance false
  | pop rn =>
    simp only [exec, execPop] at h
    split at h <;> cases h
    · exact (k.pop.drawWord.writeReg rn _ (hd rn rfl)).advance false
    · exact (k.pop.writeReg rn _ (hd rn rfl)).advance false

/-! ### The statements -/

/-- Settles O18: no flag write reaches a bit from 5 on. -/
theorem masksAndKeyKept : Obligations.MasksAndKeyKept := by
  intro i s t h hdest hpsw n h5 hn
  have hflag : n ∉ flagBits i := fun hmem => by
    have := flagBits_subset i hmem
    simp at this
    omega
  exact (exec_keepsStrBit h hn hflag (absurd · hdest) fun l e => absurd e (hpsw l)).bit

/-- Settles O19. -/
theorem flagsKept : Obligations.FlagsKept := by
  intro i s t h hdest hpsw
  have keeps : ∀ n, n < 16 → n ∉ flagBits i → t.strBit n = s.strBit n := fun n hn hflag =>
    (exec_keepsStrBit h hn hflag (absurd · hdest) fun l e => absurd e (hpsw l)).bit
  constructor
  · intro hw
    have hnone : ∀ n, n ∉ flagBits i := by simp [flagBits_of_writesFlags_false hw]
    exact ⟨keeps 0 (by omega) (hnone 0), keeps 2 (by omega) (hnone 2)⟩
  · rintro rn em c (rfl | rfl) <;> exact keeps 2 (by omega) (by simp [flagBits])

/-- Settles O20: E and V are not among the unused bits, and every other write of STR drops these. -/
theorem unusedBitsIgnoreWrites : Obligations.UnusedBitsIgnoreWrites := by
  intro i s t h hstorage n hunused
  have hdrop : WriteDropped n s := ⟨hunused, hstorage⟩
  have hflag : n ∉ flagBits i := fun hmem => by
    have := flagBits_subset i hmem
    simp [unusedBits] at this hunused
    omega
  exact (exec_keepsStrBit h (unusedBits_lt hunused) hflag (fun _ => hdrop) fun _ _ => hdrop).bit

end Sys2Proof.Machine
end

section
/-!
SUPPORT. What an instruction may do outside the registers: write memory, reach the I/O space and draw free
values are each tied to the instructions that may do so (R41, R46, 93); the parameters and the launch map
stay, and memory stays canonical. One walk over the instructions says all of it.
-/

namespace Sys2Proof.Machine

open Sys2Proof.Config

/-! ### What an instruction may do outside the registers -/

/-- The instructions of the I/O space (R46). -/
def AccessesIo (i : Instr) : Prop := ∃ r p, i = .rd r p ∨ i = .wt r p

/-- Nothing that `i` uses from `s` on is left free: its behaviour is specified (93 U4, U5, U7, U8), STR
reads have a fixed value (U2), all memory is present (U9) and the platform answers (R47). -/
structure NothingFree (i : Instr) (s : State) : Prop where
  specified : isSpecified s.cfg i = true
  strFixed : s.cfg.strUnused ≠ .any
  present : ∀ a, kindAt s.map a ≠ .absent
  answered : s.ioAnswers ≠ []

/-- From `s` to `t` nothing happened outside the registers but what `i` may do there. -/
structure Confined (i : Instr) (s t : State) : Prop where
  map : t.map = s.map
  cfg : t.cfg = s.cfg
  canonical : Memory.wf s.mem = true → Memory.wf t.mem = true
  mem : writesMemory i = false → t.mem = s.mem
  io : ¬ AccessesIo i → SameIo s t
  draws : NothingFree i s → t.draws = s.draws

namespace Confined

variable {i : Instr} {s t u : State}

theorem refl (i : Instr) (s : State) : Confined i s s :=
  ⟨rfl, rfl, id, fun _ => rfl, fun _ => ⟨rfl, rfl⟩, fun _ => rfl⟩

/-! The four ways a state changes: registers alone, a free value, memory, the I/O record. -/

theorem registers (h : Confined i s t) (hmap : u.map = t.map) (hcfg : u.cfg = t.cfg)
    (hmem : u.mem = t.mem) (hio : SameIo t u) (hdraws : u.draws = t.draws) : Confined i s u where
  map := hmap.trans h.map
  cfg := hcfg.trans h.cfg
  canonical hw := by rw [hmem]; exact h.canonical hw
  mem hw := hmem.trans (h.mem hw)
  io hi := ⟨hio.1.trans (h.io hi).1, hio.2.trans (h.io hi).2⟩
  draws hn := hdraws.trans (h.draws hn)

theorem bump (h : Confined i s t) (hfree : ¬ NothingFree i s) : Confined i s t.bump where
  map := h.map
  cfg := h.cfg
  canonical := h.canonical
  mem := h.mem
  io := h.io
  draws hn := absurd hn hfree

theorem memWrite (h : Confined i s t) (hw : writesMemory i = true) (a v : Word) :
    Confined i s (memWrite a v t) := by
  obtain ⟨m, hm, hwf⟩ := memWrite_after a v t
  rw [hm]
  exact { h with
    canonical := fun hs => hwf (h.canonical hs)
    mem := fun hno => absurd (hw.symm.trans hno) (by simp) }

theorem ioRecord (h : Confined i s t) (hio : AccessesIo i) (log : List IoEvent) (ans : List Word) :
    Confined i s { t with ioLog := log, ioAnswers := ans } :=
  { h with io := fun hno => absurd hio hno }

/-! Reads: a free value is drawn only where something is left free. -/

theorem memRead (h : Confined i s t) (a : Word) : Confined i s (memRead a t).after := by
  by_cases hk : kindAt t.map a = .absent
  · rw [memRead_absent hk]
    exact h.bump fun hn => hn.present a (h.map ▸ hk)
  · rw [memRead_present hk]
    exact h

theorem readStr (h : Confined i s t) : Confined i s (readStr t).after := by
  unfold Machine.readStr
  cases hu : t.cfg.strUnused with
  | any => exact h.bump fun hn => hn.strFixed (h.cfg ▸ hu)
  | zero => exact h
  | storage => exact h

theorem readReg (h : Confined i s t) (r : Reg) : Confined i s (readReg r t).after := by
  by_cases hr : r = .str
  · subst hr; exact h.readStr
  · rw [readReg_ne_str hr]; exact h

theorem readPair (h : Confined i s t) (rd rs : Reg) : Confined i s (readPair rd rs t).after := by
  unfold Machine.readPair
  dsimp only
  split
  · exact h.readReg rd
  · exact (h.readReg rd).readReg rs

theorem effectiveAddress (h : Confined i s t) (ea : Ea) :
    Confined i s (effectiveAddress ea t).after := by
  unfold Machine.effectiveAddress
  cases ea.mode with
  | zeroPage | relative | indexX0 | indexX1 => exact h
  | zeroPageIndirect | relativeIndirect | indirectX0 | indirectX1 => exact h.memRead _

/-- An RD reads the I/O space before it does anything else. -/
theorem ioRead (hio : AccessesIo i) (port : Byte) (s : State) :
    Confined i s (ioRead port s).after := by
  cases ha : s.ioAnswers with
  | nil =>
    rw [ioRead_unanswered ha]
    exact ((refl i s).bump fun hn => hn.answered ha).ioRecord hio _ _
  | cons v rest =>
    rw [ioRead_answered ha]
    exact (refl i s).ioRecord hio _ _

/-! Writes of registers, flags and IC. -/

theorem setIc (h : Confined i s t) (a : Word) : Confined i s (t.setIc a) :=
  h.registers rfl rfl rfl ⟨rfl, rfl⟩ rfl

theorem advance (h : Confined i s t) (skip : Bool) : Confined i s (advance skip t) := h.setIc _

theorem raiseHalt (h : Confined i s t) (cause : HaltCause) : Confined i s (raiseHalt cause t) :=
  h.registers rfl rfl rfl ⟨rfl, rfl⟩ rfl

theorem writeReg (h : Confined i s t) (r : Reg) (v : Word) : Confined i s (writeReg r v t) := by
  obtain ⟨_, _, _, _, _, _, _, ht⟩ := writeReg_rest r v t
  rw [ht]
  exact h.registers rfl rfl rfl ⟨rfl, rfl⟩ rfl

theorem applyEm (h : Confined i s t) (em : Em) : Confined i s (applyEm em t) := by
  obtain ⟨x, hx⟩ := applyEm_after em t
  rw [hx]
  exact h.registers rfl rfl rfl ⟨rfl, rfl⟩ rfl

theorem freeFlags (h : Confined i s t) (hfree : ¬ NothingFree i s) : Confined i s (freeFlags t) :=
  (h.bump hfree).registers rfl rfl rfl ⟨rfl, rfl⟩ rfl

theorem setFlags (h : Confined i s t) (e v : Bool) : Confined i s (setFlags e v t) :=
  h.registers rfl rfl rfl ⟨rfl, rfl⟩ rfl

theorem writeFlags (h : Confined i s t) (rd : Reg) (e v : Bool)
    (hrd : NothingFree i s → rd ≠ .str) : Confined i s (writeFlags rd e v t) := by
  unfold Machine.writeFlags
  split
  case isTrue hstr => exact h.freeFlags fun hn => hrd hn hstr
  case isFalse => exact h.setFlags e v

theorem underPolicy (h : Confined i s t) (p : FlagPolicy) (rd : Reg) (e v : Bool)
    (hrd : NothingFree i s → rd ≠ .str ∨ p = .keep) :
    Confined i s (underPolicy p (Machine.writeFlags rd e v) t) := by
  cases p with
  | update => exact h.writeFlags rd e v fun hn => (hrd hn).resolve_right (by simp)
  | keep => exact h

theorem writeE (h : Confined i s t) (rn : Reg) (e : Bool) (hrn : NothingFree i s → rn ≠ .str) :
    Confined i s (writeE rn e t) := by
  unfold Machine.writeE
  split
  case isTrue hstr => exact h.freeFlags fun hn => hrn hn hstr
  case isFalse => exact h.registers rfl rfl rfl ⟨rfl, rfl⟩ rfl

/-! Endings, the stack and the PSW. -/

theorem finish {w : Nat} (h : Confined i s t) (c : Cond) (res : BitVec w) (mag : Magnitude) :
    Confined i s (finish c res mag t) := h.setIc _

theorem finishFree {w : Nat} (h : Confined i s t) (c : Cond) (res : BitVec w)
    (hc : NothingFree i s → usesMagnitude c = false) : Confined i s (finishFree c res t) := by
  unfold Machine.finishFree
  dsimp only
  split
  case isTrue huses => exact (h.finish c res _).bump fun hn => by simp [hc hn] at huses
  case isFalse => exact h.finish c res _

theorem compareValues {w : Nat} (h : Confined i s t) (x y : BitVec w) (c : Cond) :
    Confined i s (compareValues x y c t) := by
  unfold Machine.compareValues
  cases t.cfg.flagsCmp with
  | update => exact (h.setFlags _ _).finish c _ _
  | keep => exact h.finish c _ _

theorem push (h : Confined i s t) (hw : writesMemory i = true) (v : Word) :
    Confined i s (push v t) :=
  (h.memWrite hw (pushAddress t) v).registers rfl rfl rfl ⟨rfl, rfl⟩ rfl

theorem pop (h : Confined i s t) : Confined i s (pop t).after :=
  (h.memRead (popAddress t)).registers rfl rfl rfl ⟨rfl, rfl⟩ rfl

theorem loadPsw (h : Confined i s t) (a : Word) : Confined i s (loadPsw a t) := by
  have hread := (h.memRead a).memRead (a + 1)
  unfold Machine.loadPsw
  cases t.cfg.pswOrder with
  | strFirst => exact (hread.writeReg .str _).setIc _
  | icFirst => exact (hread.writeReg .str _).setIc _

end Confined

/-! ### Each instruction -/

/-- What every instruction does outside the registers. -/
theorem exec_confined {i : Instr} {s t : State} (h : exec i s = .next t) : Confined i s t := by
  have k := Confined.refl i s
  have hspec : NothingFree i s → isSpecified s.cfg i = true := NothingFree.specified
  cases i with
  | l r ea =>
    cases h
    exact (((k.effectiveAddress ea).memRead _).writeReg r _).advance false
  | st r ea =>
    cases h
    exact (((k.effectiveAddress ea).readReg r).memWrite rfl _ _).advance false
  | ims ea | dms ea =>
    cases h
    exact (((k.effectiveAddress ea).memRead _).memWrite rfl _ _).advance _
  | b ea =>
    cases h
    exact (k.effectiveAddress ea).setIc _
  | bal ea =>
    cases h
    exact ((k.effectiveAddress ea).push rfl _).setIc _
  | ret =>
    cases h
    exact k.pop.setIc _
  | a rd rs c | s rd rs c =>
    cases h
    exact (((k.readPair rd rs).writeReg rd _).writeFlags rd _ _
      (by simpa [isSpecified] using hspec)).finish c _ _
  | and rd rs c | or rd rs c | eor rd rs c | mvb rd rs c =>
    cases h
    exact ((k.readPair rd rs).writeReg rd _).finishFree c _
      (by simpa [isSpecified] using hspec)
  | c rd rs c | cb rd rs c =>
    cases h
    exact (k.readPair rd rs).compareValues _ _ c
  | mv rd rs c | bswp rd rs c | dswp rd rs c =>
    cases h
    exact ((k.readReg rs).writeReg rd _).finishFree c _
      (by simpa [isSpecified] using hspec)
  | lad rd rs c =>
    cases h
    exact (((k.readPair rd rs).writeReg rd _).underPolicy _ rd _ _
      (by simpa [isSpecified] using hspec)).finish c _ _
  | sl rn em c | sr rn em c =>
    cases h
    simp only [isSpecified, Bool.and_eq_true, decide_eq_true_eq, Bool.not_eq_true'] at hspec
    exact ((((k.applyEm em).readReg rn).writeReg rn _).writeE rn _ fun hn => (hspec hn).1).finishFree
      c _ fun hn => (hspec hn).2
  | sbit rn i4 c | rbit rn i4 c =>
    cases h
    exact ((k.readReg rn).writeReg rn _).finishFree c _
      (by simpa [isSpecified] using hspec)
  | tbit rn i4 c =>
    cases h
    exact (k.readReg rn).finishFree c _
      (by simpa [isSpecified] using hspec)
  | ai rn i4 c | si rn i4 c =>
    cases h
    exact (((k.readReg rn).writeReg rn _).underPolicy _ rn _ _
      (by simpa [isSpecified] using hspec)).finish c _ _
  | mvi rn i8 =>
    simp only [exec, execMvi] at h
    split at h <;> cases h
    · exact (k.writeReg rn _).advance false
    · exact (k.writeReg rn _).advance false
    · exact ((k.readReg rn).writeReg rn _).advance false
  | rd rn i8 =>
    cases h
    exact ((Confined.ioRead ⟨rn, i8, .inl rfl⟩ i8 s).writeReg rn _).advance false
  | wt rn i8 =>
    cases h
    exact ((k.readReg rn).ioRecord ⟨rn, i8, .inr rfl⟩ _ _).advance false
  | lpsw i2 =>
    simp only [exec, execLpsw] at h
    split at h <;> cases h
    · exact k.loadPsw _
    · exact k.raiseHalt _
  | h =>
    cases h
    exact k.raiseHalt _
  | push rn =>
    cases h
    exact ((k.readReg rn).push rfl _).advance false
  | pop rn =>
    simp only [exec, execPop] at h
    split at h <;> cases h
    · have hsp : NothingFree (.pop rn) s → rn ≠ .sp := by simpa [isSpecified] using hspec
      exact ((k.pop.bump fun hn => hsp hn ‹_›).writeReg rn _).advance false
    · exact (k.pop.writeReg rn _).advance false

/-! ### The statements on instructions -/

/-- Settles O17. -/
theorem onlyRdAndWtReachIo : Obligations.OnlyRdAndWtReachIo := by
  intro i s t h hrd hwt
  refine (exec_confined h).io ?_
  rintro ⟨r, p, hi | hi⟩
  · exact hrd r p hi
  · exact hwt r p hi

/-- Settles O21: the premises are those under which nothing is left free. -/
theorem specifiedInstructionsDrawNothing : Obligations.SpecifiedInstructionsDrawNothing :=
  fun _ _ _ h hspec hstr hpresent hanswer =>
    (exec_confined h).draws ⟨hspec, hstr, hpresent, hanswer⟩

end Sys2Proof.Machine
end

section
/-!
SUPPORT. What a boundary can do, each case with the state it leaves (R29, R236, R260; log entry 18), and
what every case keeps: the parameters, the launch map, the invariant, and, but for a store or an interrupt
entry, the memory.
-/

namespace Sys2Proof.Machine

open Sys2Proof.Config

/-! ### The cases of a boundary -/

/-- What happened at a boundary whose pins are read in `u`, and the state it left. -/
inductive BoundaryCase (u : State) : State → Prop
  | reset (hrst : u.pins.rst = true) : BoundaryCase u (applyReset u)
  | start {cause : HaltCause} (hrst : u.pins.rst = false) (hrun : u.run = .halted cause)
      (hstrt : u.pins.strt = true) : BoundaryCase u (leaveHalt u)
  | idle {cause : HaltCause} (hrst : u.pins.rst = false) (hrun : u.run = .halted cause)
      (hstrt : u.pins.strt = false) : BoundaryCase u u
  | interrupt {l : Level} (hrst : u.pins.rst = false) (hrun : u.run = .running)
      (hirq : pendingInterrupt u = some l) : BoundaryCase u (takeInterrupt l u)
  | undefinedWord (hrst : u.pins.rst = false) (hrun : u.run = .running)
      (hirq : pendingInterrupt u = none)
      (hdec : decodeWord u.cfg.encoding (fetch u).value = none) :
      BoundaryCase u (raiseHalt .undefinedInstruction (fetch u).after)
  | instruction {i : Instr} {t : State} (hrst : u.pins.rst = false) (hrun : u.run = .running)
      (hirq : pendingInterrupt u = none)
      (hdec : decodeWord u.cfg.encoding (fetch u).value = some i)
      (hexec : exec i (fetch u).after = .next t) : BoundaryCase u t

theorem boundaryCase_of_boundary {u t : State} (h : boundary u = .next t) : BoundaryCase u t := by
  cases hrst : u.pins.rst with
  | true =>
    simp only [boundary, hrst, if_true] at h
    cases h
    exact .reset hrst
  | false =>
    cases hrun : u.run with
    | halted cause =>
      rw [boundary_halted hrst hrun] at h
      cases hstrt : u.pins.strt <;> rw [hstrt] at h <;> cases h
      · exact .idle hrst hrun hstrt
      · exact .start hrst hrun hstrt
    | running =>
      cases hirq : pendingInterrupt u with
      | some l =>
        simp only [boundary, hrst, hrun, hirq] at h
        cases h
        exact .interrupt hrst hrun hirq
      | none =>
        rw [boundary_running hrst hrun hirq] at h
        cases hdec : decodeWord u.cfg.encoding (fetch u).value with
        | none =>
          simp only [runInstruction, hdec] at h
          cases h
          exact .undefinedWord hrst hrun hirq hdec
        | some i =>
          simp only [runInstruction, hdec] at h
          exact .instruction hrst hrun hirq hdec h

theorem boundaryCase_of_step {s t : State} (h : step s = .next t) :
    BoundaryCase (samplePins s) t := boundaryCase_of_boundary h

theorem fetch_after (u : State) : ∃ n, (fetch u).after = { u with draws := n } := memRead_after u.ic u

/-! ### The parameters and the launch map -/

theorem BoundaryCase.keepsParameters {u t : State} (h : BoundaryCase u t) :
    t.cfg = u.cfg ∧ t.map = u.map := by
  obtain ⟨n, hfetch⟩ := fetch_after u
  cases h with
  | reset | start | idle => exact ⟨rfl, rfl⟩
  | @interrupt l =>
    obtain ⟨m, x, a, k, ht, -⟩ := takeInterrupt_after l u
    rw [ht]
    exact ⟨rfl, rfl⟩
  | undefinedWord =>
    rw [hfetch]
    exact ⟨rfl, rfl⟩
  | instruction _ _ _ _ hexec =>
    rw [hfetch] at hexec
    exact ⟨(exec_confined hexec).cfg, (exec_confined hexec).map⟩

/-- Settles O15. -/
theorem stepKeepsParameters : Obligations.StepKeepsParameters := by
  intro s t h
  obtain ⟨hcfg, hmap⟩ := (boundaryCase_of_step h).keepsParameters
  exact ⟨hcfg.trans (samplePins_cfg s), hmap.trans (samplePins_map s)⟩

/-! ### Memory -/

theorem exec_mem {i : Instr} {s t : State} (h : exec i s = .next t) (hw : writesMemory i = false) :
    t.mem = s.mem := (exec_confined h).mem hw

/-- A boundary leaves memory as it is, but for an interrupt entry and the instructions that store (R41,
R48, R238, R260). -/
theorem BoundaryCase.mem_or_stores {u t : State} (h : BoundaryCase u t) :
    t.mem = u.mem ∨ u.pins.rst = false ∧ u.run = .running ∧
      ((∃ l, pendingInterrupt u = some l) ∨
        ∃ i, decodeWord u.cfg.encoding (fetch u).value = some i ∧ writesMemory i = true) := by
  obtain ⟨n, hfetch⟩ := fetch_after u
  cases h with
  | reset | start | idle => exact .inl rfl
  | interrupt hrst hrun hirq => exact .inr ⟨hrst, hrun, .inl ⟨_, hirq⟩⟩
  | undefinedWord => rw [hfetch]; exact .inl rfl
  | @instruction i _ hrst hrun _ hdec hexec =>
    rw [hfetch] at hexec
    cases hw : writesMemory i with
    | true => exact .inr ⟨hrst, hrun, .inr ⟨i, hdec, hw⟩⟩
    | false =>
      have hmem := exec_mem hexec hw
      exact .inl hmem

/-- Settles O16. -/
theorem onlyStoresChangeMemory : Obligations.OnlyStoresChangeMemory := by
  refine ⟨fun i s t h hw => sameMemory_of_eq (exec_mem h hw), ?_⟩
  rintro s t u rfl h hchanged
  refine (boundaryCase_of_step h).mem_or_stores.resolve_left fun hmem => hchanged ?_
  exact sameMemory_of_eq (hmem.trans (samplePins_mem s))

/-! ### The invariant -/

/-- Words with the same unused bits leave the same under the mask of R24. -/
theorem and_unusedMask_congr {o : BitOrder} {v w : Word}
    (h : ∀ n ∈ unusedBits, v.getLsbD (bitPosition o n) = w.getLsbD (bitPosition o n)) :
    v &&& unusedMask o = w &&& unusedMask o := by
  refine eq_of_wordBits o fun n hn => ?_
  rw [BitVec.getLsbD_and, BitVec.getLsbD_and, unusedMask_bit hn]
  by_cases hunused : n ∈ unusedBits
  · rw [h n hunused]
  · simp [hunused]

/-- The invariant carries over where the parameters, the canonical form and the unused bits of STR do. -/
theorem stateInvariant_of_kept {s t : State} (hs : StateInvariant s) (hcfg : t.cfg = s.cfg)
    (hmem : Memory.wf s.mem = true → Memory.wf t.mem = true)
    (hstr : s.cfg.strUnused ≠ .storage → ∀ n ∈ unusedBits, t.strBit n = s.strBit n) :
    StateInvariant t := by
  obtain ⟨hwf, hunused⟩ := hs
  refine ⟨hmem hwf, ?_⟩
  rw [hcfg]
  intro hstorage
  obtain ⟨hzero, hreset⟩ := hunused hstorage
  refine ⟨?_, hreset⟩
  have hbits := hstr hstorage
  simp only [State.strBit, hcfg] at hbits
  rw [and_unusedMask_congr hbits, hzero]

theorem samplePins_stateInvariant {s : State} (hs : StateInvariant s) :
    StateInvariant (samplePins s) := by
  rw [samplePins_eq]; exact hs

theorem applyReset_stateInvariant {s : State} (hs : StateInvariant s) :
    StateInvariant (applyReset s) := by
  obtain ⟨hwf, hunused⟩ := hs
  exact ⟨hwf, fun hstorage => ⟨(hunused hstorage).2, (hunused hstorage).2⟩⟩

/-- The STR word an interrupt loads is written as any other: the bits that such a write drops stay. -/
theorem takeInterrupt_keepsStrBit {n : Nat} {s : State} (l : Level) (hd : WriteDropped n s) :
    KeepsStrBit n s (takeInterrupt l s) := by
  have hread := (KeepsStrBit.refl (unusedBits_lt hd.1) s).readReg .str
  unfold takeInterrupt
  refine KeepsStrBit.loadPsw ?_ _ hd
  unfold writePsw
  split
  · exact (hread.memWrite _ _).memWrite _ _
  · exact (hread.memWrite _ _).memWrite _ _

theorem takeInterrupt_stateInvariant {s : State} (l : Level) (hs : StateInvariant s) :
    StateInvariant (takeInterrupt l s) := by
  obtain ⟨m, x, a, k, ht, hwf⟩ := takeInterrupt_after l s
  refine stateInvariant_of_kept hs (by rw [ht]) (by rw [ht]; exact hwf) fun hstorage n hn => ?_
  exact (takeInterrupt_keepsStrBit l ⟨hn, hstorage⟩).bit

theorem exec_stateInvariant {i : Instr} {s t : State} (h : exec i s = .next t)
    (hs : StateInvariant s) : StateInvariant t :=
  stateInvariant_of_kept hs (exec_confined h).cfg (exec_confined h).canonical
    (unusedBitsIgnoreWrites i s t h)

theorem fetch_stateInvariant {u : State} (hu : StateInvariant u) :
    StateInvariant (fetch u).after := by
  obtain ⟨n, hfetch⟩ := fetch_after u
  rw [hfetch]; exact hu

theorem BoundaryCase.stateInvariant {u t : State} (h : BoundaryCase u t) (hu : StateInvariant u) :
    StateInvariant t := by
  cases h with
  | reset => exact applyReset_stateInvariant hu
  | start | idle => exact hu
  | interrupt => exact takeInterrupt_stateInvariant _ hu
  | undefinedWord => exact fetch_stateInvariant hu
  | instruction _ _ _ _ hexec => exact exec_stateInvariant hexec (fetch_stateInvariant hu)

/-- Settles O13. -/
theorem stepKeepsInvariant : Obligations.StepKeepsInvariant :=
  fun _ _ hs h => (boundaryCase_of_step h).stateInvariant (samplePins_stateInvariant hs)

end Sys2Proof.Machine
end

section
/-!
SUPPORT. The encoding of R100 to R109 as a round trip: the codes of the operands, a word as what its
fields put together in each format, and the decoder and the encoder undoing each other.
-/

namespace Sys2Proof

open Sys2Proof.Machine

/-! ### Field codes (R14, R66 to R73, R75, R80 to R95) -/

theorem Reg.ofCode_eq_some_iff {k : BitVec 3} {r : Reg} : Reg.ofCode k = some r ↔ k = r.code := by
  revert k; cases r <;> decide

theorem Reg.ofCode_eq_none_iff {k : BitVec 3} : Reg.ofCode k = none ↔ k = 7 := by
  revert k; decide

@[simp] theorem Reg.ofCode_code (r : Reg) : Reg.ofCode r.code = some r :=
  Reg.ofCode_eq_some_iff.mpr rfl

@[simp] theorem EaMode.ofCode_code (m : EaMode) : EaMode.ofCode m.code = m := by cases m <;> rfl

@[simp] theorem EaMode.code_ofCode : ∀ k : BitVec 3, (EaMode.ofCode k).code = k := by decide

@[simp] theorem Em.ofCode_code (m : Em) : Em.ofCode m.code = m := by cases m <;> rfl

@[simp] theorem Em.code_ofCode : ∀ k : BitVec 2, (Em.ofCode k).code = k := by decide

@[simp] theorem Cond.ofCode_code (c : Cond) : Cond.ofCode c.code = c := by cases c <;> rfl

@[simp] theorem Cond.code_ofCode : ∀ k : BitVec 4, (Cond.ofCode k).code = k := by decide

/-! ### A word and its fields -/

/-- A word put together from two parts is the word that has these parts as its fields. -/
theorem eq_append_iff_fields {m n : Nat} {a : BitVec m} {b : BitVec n} {w : BitVec (m + n)} :
    w = a ++ b ↔ w.extractLsb' n m = a ∧ w.extractLsb' 0 n = b := by
  constructor
  · rintro rfl
    exact ⟨BitVec.extractLsb'_append_eq_left, BitVec.extractLsb'_append_eq_right⟩
  · rintro ⟨rfl, rfl⟩
    rw [BitVec.extractLsb'_append_extractLsb'_eq_extractLsb' (Nat.zero_add n).symm,
      BitVec.extractLsb'_eq_self]

theorem field_of_field {l k n i m : Nat} {w : BitVec l} (h : i + m ≤ n) :
    (w.extractLsb' k n).extractLsb' i m = w.extractLsb' (k + i) m := by
  refine BitVec.eq_of_getLsbD_eq fun j hj => ?_
  have hin : i + j < n := by omega
  simp [hj, hin, Nat.add_assoc]

theorem eq_encodeRR_iff {op : BitVec 5} {sub : BitVec 1} {rd rs : Reg} {c : Cond} {w : Word} :
    w = encodeRR op sub rd rs c ↔
      w.extractLsb' 11 5 = op ∧ w.extractLsb' 8 3 = rd.code ∧ w.extractLsb' 4 4 = c.code ∧
        w.extractLsb' 3 1 = sub ∧ w.extractLsb' 0 3 = rs.code := by
  unfold encodeRR
  rw [eq_append_iff_fields (m := 5 + 3 + 4 + 1) (n := 3)]
  simp only [eq_append_iff_fields]
  simp [field_of_field, and_assoc]

theorem eq_encodeSH_iff {dir : BitVec 1} {rn : Reg} {em : Em} {c : Cond} {w : Word} :
    w = encodeSH dir rn em c ↔
      w.extractLsb' 11 5 = 4 ∧ w.extractLsb' 8 3 = rn.code ∧ w.extractLsb' 4 4 = c.code ∧
        w.extractLsb' 3 1 = 1 ∧ w.extractLsb' 2 1 = dir ∧ w.extractLsb' 0 2 = em.code := by
  unfold encodeSH
  rw [eq_append_iff_fields (m := 5 + 3 + 4 + 1 + 1) (n := 2)]
  simp only [eq_append_iff_fields]
  simp [field_of_field, and_assoc]

theorem eq_encodeBI_iff {op : BitVec 5} {rn : Reg} {i4 : BitVec 4} {c : Cond} {w : Word} :
    w = encodeBI op rn i4 c ↔
      w.extractLsb' 11 5 = op ∧ w.extractLsb' 8 3 = rn.code ∧ w.extractLsb' 4 4 = c.code ∧
        w.extractLsb' 0 4 = i4 := by
  unfold encodeBI
  rw [eq_append_iff_fields (m := 5 + 3 + 4) (n := 4)]
  simp only [eq_append_iff_fields]
  simp [field_of_field, and_assoc]

theorem eq_encodeI8_iff {op : BitVec 5} {rn : Reg} {i8 : Byte} {w : Word} :
    w = encodeI8 op rn i8 ↔
      w.extractLsb' 11 5 = op ∧ w.extractLsb' 8 3 = rn.code ∧ w.extractLsb' 0 8 = i8 := by
  unfold encodeI8
  rw [eq_append_iff_fields (m := 5 + 3) (n := 8)]
  simp only [eq_append_iff_fields]
  simp [field_of_field, and_assoc]

theorem eq_encodeZ_iff {rn fn : BitVec 3} {w : Word} :
    w = encodeZ rn fn ↔
      w.extractLsb' 11 5 = 4 ∧ w.extractLsb' 8 3 = rn ∧ w.extractLsb' 4 4 = 0 ∧
        w.extractLsb' 3 1 = 0 ∧ w.extractLsb' 0 3 = fn := by
  unfold encodeZ
  rw [eq_append_iff_fields (m := 5 + 3 + 4 + 1) (n := 3)]
  simp only [eq_append_iff_fields]
  simp [field_of_field, and_assoc]

theorem eq_encodeM_iff {op : BitVec 1} {r : BitVec 3} {ea : Ea} {w : Word} :
    w = encodeM op r ea ↔
      w.extractLsb' 15 1 = 1 ∧ w.extractLsb' 14 1 = op ∧ w.extractLsb' 11 3 = ea.mode.code ∧
        w.extractLsb' 8 3 = r ∧ w.extractLsb' 0 8 = ea.disp := by
  unfold encodeM
  rw [eq_append_iff_fields (m := 1 + 1 + 3 + 3) (n := 8)]
  simp only [eq_append_iff_fields]
  simp [field_of_field, and_assoc]

/-- A bit of a word is its field of width one. -/
theorem bit_eq_field (w : Word) (k : Nat) : w.getLsbD k = decide (w.extractLsb' k 1 = 1) := by
  rw [BitVec.getLsbD_eq_extractLsb']
  rfl

theorem field_of_bit {w : Word} {k : Nat} {b : Bool} (h : w.getLsbD k = b) :
    w.extractLsb' k 1 = BitVec.ofBool b := by
  subst h
  rw [bit_eq_field]
  generalize w.extractLsb' k 1 = f
  revert f; decide

/-- Bit 15 of a word is the top bit of its opcode (R101, R107). -/
theorem formatM_iff {w : Word} : w.extractLsb' 15 1 = 1 ↔ 16 ≤ (w.extractLsb' 11 5).toNat := by
  have hfield : w.extractLsb' 15 1 = (w.extractLsb' 11 5).extractLsb' 4 1 := by
    simp [field_of_field]
  rw [hfield]
  generalize w.extractLsb' 11 5 = op
  revert op; decide

theorem decode_formatM {w : Word} (h : w.extractLsb' 15 1 = 1) : decode w = decodeM w := by
  have hop := formatM_iff.mp h
  unfold decode
  split
  case h_17 => rfl
  all_goals omega

/-! ### Decoding an encoded word -/

theorem opcode_encodeRR (op : BitVec 5) (sub : BitVec 1) (rd rs : Reg) (c : Cond) :
    (encodeRR op sub rd rs c).extractLsb' 11 5 = op := (eq_encodeRR_iff.mp rfl).1

theorem opcode_encodeBI (op : BitVec 5) (rn : Reg) (i4 : BitVec 4) (c : Cond) :
    (encodeBI op rn i4 c).extractLsb' 11 5 = op := (eq_encodeBI_iff.mp rfl).1

theorem opcode_encodeI8 (op : BitVec 5) (rn : Reg) (i8 : Byte) :
    (encodeI8 op rn i8).extractLsb' 11 5 = op := (eq_encodeI8_iff.mp rfl).1

theorem withRegister_code (r : Reg) (f : Reg → Decoded) : withRegister r.code f = f r := by
  unfold withRegister
  rw [Reg.ofCode_code]

theorem decodeRR_encodeRR (op : BitVec 5) (sub : BitVec 1) (rd rs : Reg) (c : Cond)
    (sub0 sub1 : Reg → Reg → Cond → Instr) :
    decodeRR (encodeRR op sub rd rs c) sub0 sub1 =
      .instr ((if sub = 1 then sub1 else sub0) rd rs c) := by
  obtain ⟨-, hrd, hc, hsub, hrs⟩ := eq_encodeRR_iff.mp (Eq.refl (encodeRR op sub rd rs c))
  simp only [decodeRR, hrd, hrs, withRegister_code, hc, Cond.ofCode_code, bit_eq_field, hsub,
    decide_eq_true_eq]

theorem decodeBI_encodeBI (op : BitVec 5) (rn : Reg) (i4 : BitVec 4) (c : Cond)
    (f : Reg → BitVec 4 → Cond → Instr) :
    decodeBI (encodeBI op rn i4 c) f = .instr (f rn i4 c) := by
  obtain ⟨-, hrn, hc, hi4⟩ := eq_encodeBI_iff.mp (Eq.refl (encodeBI op rn i4 c))
  simp only [decodeBI, hrn, withRegister_code, hc, Cond.ofCode_code, hi4]

theorem decodeI8_encodeI8 (op : BitVec 5) (rn : Reg) (i8 : Byte) (f : Reg → Byte → Instr) :
    decodeI8 (encodeI8 op rn i8) f = .instr (f rn i8) := by
  obtain ⟨-, hrn, hi8⟩ := eq_encodeI8_iff.mp (Eq.refl (encodeI8 op rn i8))
  simp only [decodeI8, hrn, withRegister_code, hi8]

theorem decodeSH_encodeSH (dir : BitVec 1) (rn : Reg) (em : Em) (c : Cond) :
    decodeSH (encodeSH dir rn em c) =
      .instr ((if dir = 1 then Instr.sl else Instr.sr) rn em c) := by
  obtain ⟨-, hrn, hc, -, hdir, hem⟩ := eq_encodeSH_iff.mp (Eq.refl (encodeSH dir rn em c))
  simp only [decodeSH, hrn, withRegister_code, hc, Cond.ofCode_code, hem, Em.ofCode_code,
    bit_eq_field, hdir, decide_eq_true_eq]

/-- Bit 3 tells format SH from format Z (R103, R106). -/
theorem decode_encodeSH (dir : BitVec 1) (rn : Reg) (em : Em) (c : Cond) :
    decode (encodeSH dir rn em c) = decodeSH (encodeSH dir rn em c) := by
  obtain ⟨hop, -, -, hbit, -⟩ := eq_encodeSH_iff.mp (Eq.refl (encodeSH dir rn em c))
  have hbit : (encodeSH dir rn em c).getLsbD 3 = true := by rw [bit_eq_field, hbit]; rfl
  unfold decode
  rw [hop, hbit]
  rfl

theorem decode_encodeM (op : BitVec 1) (r : BitVec 3) (ea : Ea) :
    decode (encodeM op r ea) = decodeM (encodeM op r ea) :=
  decode_formatM (eq_encodeM_iff.mp rfl).1

/-- Format M with a register code of R0 to R4 and SP (R13, R101). -/
theorem decodeM_encodeM_register (op : BitVec 1) {r : Reg} (h : r.memoryOperand = true) (ea : Ea) :
    decodeM (encodeM op r.code ea) = .instr (if op = 1 then .l r ea else .st r ea) := by
  obtain ⟨-, hop, hmode, hr, hdisp⟩ := eq_encodeM_iff.mp (Eq.refl (encodeM op r.code ea))
  simp only [decodeM, hr, Reg.ofCode_code, hmode, EaMode.ofCode_code, hdisp, bit_eq_field, hop,
    decide_eq_true_eq]
  cases r
  case str => exact absurd h (by decide)
  all_goals rfl

theorem decodeM_encodeM_six (op : BitVec 1) (ea : Ea) :
    decodeM (encodeM op 6 ea) = .instr (if op = 1 then .ims ea else .dms ea) := by
  obtain ⟨-, hop, hmode, hr, hdisp⟩ := eq_encodeM_iff.mp (Eq.refl (encodeM op 6 ea))
  have hcode : Reg.ofCode 6 = some .str := rfl
  simp only [decodeM, hr, hcode, hmode, EaMode.ofCode_code, hdisp, bit_eq_field, hop,
    decide_eq_true_eq]

theorem decodeM_encodeM_seven (op : BitVec 1) (ea : Ea) :
    decodeM (encodeM op 7 ea) = .instr (if op = 1 then .b ea else .bal ea) := by
  obtain ⟨-, hop, hmode, hr, hdisp⟩ := eq_encodeM_iff.mp (Eq.refl (encodeM op 7 ea))
  have hcode : Reg.ofCode 7 = none := rfl
  simp only [decodeM, hr, hcode, hmode, EaMode.ofCode_code, hdisp, bit_eq_field, hop,
    decide_eq_true_eq]

/-- Settles O1: format by format, the decoder reads the fields the encoder put together. -/
theorem decodeOfEncode : Obligations.DecodeOfEncode := by
  intro i hwf
  cases i with
  | l r ea | st r ea =>
    exact (decode_encodeM _ _ ea).trans (decodeM_encodeM_register _ hwf ea)
  | ims ea | dms ea => exact (decode_encodeM _ _ ea).trans (decodeM_encodeM_six _ ea)
  | b ea | bal ea => exact (decode_encodeM _ _ ea).trans (decodeM_encodeM_seven _ ea)
  | a rd rs c | s rd rs c | and rd rs c | or rd rs c | eor rd rs c | c rd rs c | cb rd rs c
  | mv rd rs c | mvb rd rs c | bswp rd rs c | dswp rd rs c | lad rd rs c =>
    rw [encode, decode, opcode_encodeRR]
    exact decodeRR_encodeRR _ _ rd rs c _ _
  | sl rn em c | sr rn em c =>
    exact (decode_encodeSH _ rn em c).trans (decodeSH_encodeSH _ rn em c)
  | sbit rn i4 c | rbit rn i4 c | tbit rn i4 c | ai rn i4 c | si rn i4 c =>
    rw [encode, decode, opcode_encodeBI]
    exact decodeBI_encodeBI _ rn i4 c _
  | mvi rn i8 | rd rn i8 | wt rn i8 =>
    rw [encode, decode, opcode_encodeI8]
    exact decodeI8_encodeI8 _ rn i8 _
  | ret | h => rfl
  | lpsw i2 => revert i2; decide
  | push rn | pop rn => cases rn <;> rfl

/-! ### The spec's examples -/

/-- Settles O4: each word is the one the instruction is encoded as. -/
theorem exampleWordsDecode : Obligations.ExampleWordsDecode :=
  ⟨decodeOfEncode (.l .r1 ⟨.indexX0, 5⟩) rfl, decodeOfEncode (.dms ⟨.zeroPageIndirect, 0x30⟩) rfl,
    decodeOfEncode (.bal ⟨.relative, 5⟩) rfl, decodeOfEncode (.a .r1 .r0 .enz) rfl,
    decodeOfEncode (.or .r2 .r3 .nz) rfl, decodeOfEncode (.sr .r1 .se .never) rfl,
    decodeOfEncode (.tbit .r2 3 .nz) rfl, decodeOfEncode (.wt .r1 0x20) rfl,
    decodeOfEncode (.lpsw 1) rfl, decodeOfEncode (.pop .r2) rfl⟩

/-! ### Encoding a decoded word -/

/-- The decoder's answer, if it is an instruction, is one whose word is `w`. -/
def EncodesBack (w : Word) (d : Decoded) : Prop := ∀ i, d = .instr i → encode i = w

theorem encodesBack_instr {w : Word} {i : Instr} (h : w = encode i) : EncodesBack w (.instr i) := by
  rintro _ ⟨⟩; exact h.symm

theorem encodesBack_undefined (w : Word) (why : Undefined) : EncodesBack w (.undefined why) := by
  rintro _ ⟨⟩

theorem withRegister_encodesBack {w : Word} {k : BitVec 3} {f : Reg → Decoded}
    (h : ∀ r, k = r.code → EncodesBack w (f r)) : EncodesBack w (withRegister k f) := by
  unfold withRegister
  cases hr : Reg.ofCode k with
  | none => exact encodesBack_undefined w _
  | some r => exact h r (Reg.ofCode_eq_some_iff.mp hr)

theorem decodeRR_encodesBack {w : Word} {op : BitVec 5} {sub0 sub1 : Reg → Reg → Cond → Instr}
    (h0 : ∀ rd rs c, encode (sub0 rd rs c) = encodeRR op 0 rd rs c)
    (h1 : ∀ rd rs c, encode (sub1 rd rs c) = encodeRR op 1 rd rs c)
    (hop : (w.extractLsb' 11 5).toNat = op.toNat) : EncodesBack w (decodeRR w sub0 sub1) := by
  refine withRegister_encodesBack fun rd hrd => withRegister_encodesBack fun rs hrs => ?_
  have hop := BitVec.eq_of_toNat_eq hop
  refine encodesBack_instr ?_
  cases hsub : w.getLsbD 3
  · exact (eq_encodeRR_iff.mpr ⟨hop, hrd, by simp, field_of_bit hsub, hrs⟩).trans
      (h0 rd rs _).symm
  · exact (eq_encodeRR_iff.mpr ⟨hop, hrd, by simp, field_of_bit hsub, hrs⟩).trans
      (h1 rd rs _).symm

theorem decodeBI_encodesBack {w : Word} {op : BitVec 5} {f : Reg → BitVec 4 → Cond → Instr}
    (h : ∀ rn i4 c, encode (f rn i4 c) = encodeBI op rn i4 c)
    (hop : (w.extractLsb' 11 5).toNat = op.toNat) : EncodesBack w (decodeBI w f) := by
  refine withRegister_encodesBack fun rn hrn => encodesBack_instr ?_
  rw [h]
  exact eq_encodeBI_iff.mpr ⟨BitVec.eq_of_toNat_eq hop, hrn, by simp, rfl⟩

theorem decodeI8_encodesBack {w : Word} {op : BitVec 5} {f : Reg → Byte → Instr}
    (h : ∀ rn i8, encode (f rn i8) = encodeI8 op rn i8)
    (hop : (w.extractLsb' 11 5).toNat = op.toNat) : EncodesBack w (decodeI8 w f) := by
  refine withRegister_encodesBack fun rn hrn => encodesBack_instr ?_
  rw [h]
  exact eq_encodeI8_iff.mpr ⟨BitVec.eq_of_toNat_eq hop, hrn, rfl⟩

theorem decodeSH_encodesBack {w : Word} (hop : w.extractLsb' 11 5 = 4) (hbit : w.getLsbD 3 = true) :
    EncodesBack w (decodeSH w) := by
  refine withRegister_encodesBack fun rn hrn => encodesBack_instr ?_
  have hbit := field_of_bit hbit
  cases hdir : w.getLsbD 2
  · exact eq_encodeSH_iff.mpr ⟨hop, hrn, by simp, hbit, field_of_bit hdir, by simp⟩
  · exact eq_encodeSH_iff.mpr ⟨hop, hrn, by simp, hbit, field_of_bit hdir, by simp⟩

/-- The last four function codes of format Z are those of LPSW, with I2 in bits 1 and 0 (R106). -/
theorem lpsw_code : ∀ {k : BitVec 3}, k.toNat ≠ 0 → k.toNat ≠ 1 → k.toNat ≠ 2 → k.toNat ≠ 3 →
    k = 1#1 ++ k.extractLsb' 0 2 := by
  decide

theorem decodeZ_encodesBack {w : Word} (hop : w.extractLsb' 11 5 = 4)
    (hbit : w.getLsbD 3 = false) : EncodesBack w (decodeZ w) := by
  refine withRegister_encodesBack fun rn hrn => ?_
  split
  · exact encodesBack_undefined w _
  next hc =>
  have hZ {fn : BitVec 3} (hfn : w.extractLsb' 0 3 = fn) : w = encodeZ rn.code fn :=
    eq_encodeZ_iff.mpr ⟨hop, hrn, not_not.mp hc, field_of_bit hbit, hfn⟩
  split
  case h_2 hfn | h_3 hfn => exact encodesBack_instr (hZ (BitVec.eq_of_toNat_eq hfn))
  case h_1 hfn | h_4 hfn =>
    split
    next hr0 => subst hr0; exact encodesBack_instr (hZ (BitVec.eq_of_toNat_eq hfn))
    next => exact encodesBack_undefined w _
  case h_5 h0 h1 h2 h3 =>
    have hfn := lpsw_code h0 h1 h2 h3
    rw [field_of_field (by omega)] at hfn
    split
    next hr0 => subst hr0; exact encodesBack_instr (hZ hfn)
    next => exact encodesBack_undefined w _

theorem encode_memory (op : Bool) (r : Reg) (ea : Ea) :
    encode (if op then .l r ea else .st r ea) = encodeM (BitVec.ofBool op) r.code ea := by
  cases op <;> rfl

theorem encode_count (op : Bool) (ea : Ea) :
    encode (if op then .ims ea else .dms ea) = encodeM (BitVec.ofBool op) 6 ea := by
  cases op <;> rfl

theorem encode_branch (op : Bool) (ea : Ea) :
    encode (if op then .b ea else .bal ea) = encodeM (BitVec.ofBool op) 7 ea := by
  cases op <;> rfl

theorem decodeM_encodesBack {w : Word} (h15 : w.extractLsb' 15 1 = 1) :
    EncodesBack w (decodeM w) := by
  have hM {k : BitVec 3} (hk : w.extractLsb' 8 3 = k) :
      w = encodeM (BitVec.ofBool (w.getLsbD 14)) k
        ⟨EaMode.ofCode (w.extractLsb' 11 3), w.extractLsb' 0 8⟩ :=
    eq_encodeM_iff.mpr ⟨h15, field_of_bit rfl, by simp, hk, rfl⟩
  unfold decodeM
  cases hr : Reg.ofCode (w.extractLsb' 8 3) with
  | none =>
    have hw := hM (Reg.ofCode_eq_none_iff.mp hr)
    exact encodesBack_instr (hw.trans (encode_branch _ _).symm)
  | some r =>
    have hw := hM (Reg.ofCode_eq_some_iff.mp hr)
    cases r
    case str => exact encodesBack_instr (hw.trans (encode_count _ _).symm)
    all_goals exact encodesBack_instr (hw.trans (encode_memory _ _ _).symm)

theorem decode_encodesBack (w : Word) : EncodesBack w (decode w) := by
  unfold decode
  split
  case h_1 => exact encodesBack_undefined w _
  case h_2 hop | h_3 hop | h_4 hop => exact decodeI8_encodesBack (fun _ _ => rfl) hop
  case h_5 hop =>
    have hop : w.extractLsb' 11 5 = 4 := BitVec.eq_of_toNat_eq hop
    split
    next hbit => exact decodeSH_encodesBack hop hbit
    next hbit => exact decodeZ_encodesBack hop (by simpa using hbit)
  case h_6 hop | h_7 hop | h_8 hop | h_9 hop | h_10 hop =>
    exact decodeBI_encodesBack (fun _ _ _ => rfl) hop
  case h_17 => exact decodeM_encodesBack (formatM_iff.mpr (by simp only [imp_false] at *; omega))
  all_goals exact decodeRR_encodesBack (fun _ _ _ => rfl) (fun _ _ _ => rfl) ‹_›

/-- Settles O2: format by format, the encoder puts together the fields the decoder read. -/
theorem encodeOfDecode : Obligations.EncodeOfDecode := fun w i h =>
  ⟨decode_namesAllowed w i h, decode_encodesBack w i h⟩

end Sys2Proof
end

section
/-!
SUPPORT. The undefined words of R108, by the format of a word and by its fields, and the halt they act
as.
-/

namespace Sys2Proof

open Sys2Proof.Machine

/-! ### Undefined words, format by format -/

/-- The decoder's answer is no instruction. -/
def IsUndefined (d : Decoded) : Prop := ∃ why, d = .undefined why

@[simp] theorem isUndefined_undefined (why : Undefined) : IsUndefined (.undefined why) := ⟨why, rfl⟩

@[simp] theorem not_isUndefined_instr (i : Instr) : ¬ IsUndefined (.instr i) := by
  rintro ⟨_, ⟨⟩⟩

theorem isUndefined_withRegister {k : BitVec 3} {f : Reg → Decoded} {p : Prop}
    (h : ∀ r, k = r.code → (IsUndefined (f r) ↔ p)) :
    IsUndefined (withRegister k f) ↔ k = 7 ∨ p := by
  unfold withRegister
  cases hr : Reg.ofCode k with
  | none => simp [Reg.ofCode_eq_none_iff.mp hr]
  | some r =>
    have hne : k ≠ 7 := fun h7 => by simp [Reg.ofCode_eq_none_iff.mpr h7] at hr
    exact (h r (Reg.ofCode_eq_some_iff.mp hr)).trans (or_iff_right hne).symm

/-- Where the other fields are free, only a register field that holds 7 is undefined (R108 (b)). -/
theorem isUndefined_withRegister_instr {k : BitVec 3} (f : Reg → Instr) :
    IsUndefined (withRegister k fun r => .instr (f r)) ↔ k = 7 :=
  (isUndefined_withRegister fun r _ => iff_false_intro (not_isUndefined_instr (f r))).trans
    (iff_of_eq (or_false _))

theorem isUndefined_decodeI8 (w : Word) (f : Reg → Byte → Instr) :
    IsUndefined (decodeI8 w f) ↔ w.extractLsb' 8 3 = 7 :=
  isUndefined_withRegister_instr _

theorem isUndefined_decodeBI (w : Word) (f : Reg → BitVec 4 → Cond → Instr) :
    IsUndefined (decodeBI w f) ↔ w.extractLsb' 8 3 = 7 :=
  isUndefined_withRegister_instr _

theorem isUndefined_decodeSH (w : Word) : IsUndefined (decodeSH w) ↔ w.extractLsb' 8 3 = 7 :=
  isUndefined_withRegister_instr _

theorem isUndefined_decodeRR (w : Word) (sub0 sub1 : Reg → Reg → Cond → Instr) :
    IsUndefined (decodeRR w sub0 sub1) ↔ w.extractLsb' 8 3 = 7 ∨ w.extractLsb' 0 3 = 7 :=
  isUndefined_withRegister fun _ _ => isUndefined_withRegister_instr _

theorem not_isUndefined_decodeM (w : Word) : ¬ IsUndefined (decodeM w) := by
  unfold decodeM
  cases Reg.ofCode (w.extractLsb' 8 3) with
  | none => exact not_isUndefined_instr _
  | some r => cases r <;> exact not_isUndefined_instr _

/-- H, RET and LPSW have no register: their words have 0 in its place (R106). -/
theorem isUndefined_ifR0 (rn : Reg) (i : Instr) :
    IsUndefined (if rn = .r0 then .instr i else .undefined .strayBits) ↔ rn.code ≠ 0 := by
  cases rn
  case r0 => exact iff_of_false (not_isUndefined_instr i) (by decide)
  all_goals exact iff_of_true (isUndefined_undefined _) (by decide)

/-- Format Z without a register 7: bits 7..4 are not zero, or a register stands with H, RET or LPSW,
which name none (R106, R108 (c)). -/
theorem isUndefined_decodeZ (w : Word) :
    IsUndefined (decodeZ w) ↔
      w.extractLsb' 8 3 = 7 ∨ (w.extractLsb' 4 4 ≠ 0 ∨
        w.extractLsb' 8 3 ≠ 0 ∧ (w.extractLsb' 0 3).toNat ≠ 1 ∧ (w.extractLsb' 0 3).toNat ≠ 2) := by
  refine isUndefined_withRegister fun rn hrn => ?_
  rw [hrn]
  split
  next hc => exact iff_of_true (isUndefined_undefined _) (.inl hc)
  next hc =>
  rw [or_iff_right hc]
  split
  case h_2 hfn | h_3 hfn =>
    exact iff_of_false (not_isUndefined_instr _) fun ⟨_, h1, h2⟩ => by omega
  case h_1 hfn | h_4 hfn =>
    exact (isUndefined_ifR0 rn _).trans (and_iff_left ⟨by omega, by omega⟩).symm
  case h_5 h1 h2 _ =>
    exact (isUndefined_ifR0 rn _).trans (and_iff_left ⟨h1, h2⟩).symm

/-! ### The word as a number -/

theorem opcode_toNat (w : Word) : (w.extractLsb' 11 5).toNat = w.toNat / 2048 := by
  have := w.isLt
  rw [BitVec.extractLsb'_toNat, Nat.shiftRight_eq_div_pow]
  omega

theorem strayBits_iff {w : Word} (hop : w.toNat / 2048 = 4) (hbit : w.getLsbD 3 = false) :
    ¬ (w = 0x2000 ∨ w = 0x2003 ∨ (0x2004 ≤ w.toNat ∧ w.toNat ≤ 0x2007) ∨
        (w.extractLsb' 0 8 = 1 ∧ w.extractLsb' 8 3 ≠ 7) ∨
        (w.extractLsb' 0 8 = 2 ∧ w.extractLsb' 8 3 ≠ 7)) ↔
      IsUndefined (decodeZ w) := by
  rw [isUndefined_decodeZ]
  have hbit := field_of_bit hbit
  simp only [← BitVec.toNat_inj, BitVec.extractLsb'_toNat, Nat.shiftRight_eq_div_pow, ne_eq,
    BitVec.reduceToNat, Nat.reducePow, BitVec.ofBool_false, BitVec.ofNat_eq_ofNat] at hbit ⊢
  omega

theorem range_iff_opcode {w : Word} (lo hi : Nat) {p : Prop} :
    (lo * 2048 ≤ w.toNat ∧ w.toNat ≤ hi * 2048 + 2047 ∧ p) ↔
      (lo ≤ (w.extractLsb' 11 5).toNat ∧ (w.extractLsb' 11 5).toNat ≤ hi ∧ p) := by
  rw [opcode_toNat]
  exact and_congr (by omega) (and_congr_left' (by omega))

/-- The ranges of words in R108 are ranges of opcodes (R107). -/
theorem undefinedClasses_iff (w : Word) (p q r : Prop) :
    (w.toNat ≤ 0x07FF ∨ (0x0800 ≤ w.toNat ∧ w.toNat ≤ 0x7FFF ∧ p) ∨
        (0x5000 ≤ w.toNat ∧ w.toNat ≤ 0x7FFF ∧ q) ∨ (0x2000 ≤ w.toNat ∧ w.toNat ≤ 0x27FF ∧ r)) ↔
      ((w.extractLsb' 11 5).toNat = 0 ∨
        (1 ≤ (w.extractLsb' 11 5).toNat ∧ (w.extractLsb' 11 5).toNat ≤ 15 ∧ p) ∨
        (10 ≤ (w.extractLsb' 11 5).toNat ∧ (w.extractLsb' 11 5).toNat ≤ 15 ∧ q) ∨
        (4 ≤ (w.extractLsb' 11 5).toNat ∧ (w.extractLsb' 11 5).toNat ≤ 4 ∧ r)) := by
  have hzero : w.toNat ≤ 0x07FF ↔ (w.extractLsb' 11 5).toNat = 0 := by
    rw [opcode_toNat]; omega
  exact or_congr hzero <| or_congr (range_iff_opcode 1 15) <|
    or_congr (range_iff_opcode 10 15) (range_iff_opcode 4 4)

/-- Settles O3: the opcode of a word says which of the classes of R108 it can be in. -/
theorem undefinedWordsOfTheEncoding : Obligations.UndefinedWordsOfTheEncoding := by
  intro w
  change IsUndefined (decode w) ↔ _
  refine Iff.trans ?_ (undefinedClasses_iff w _ _ _).symm
  unfold decode
  split
  case h_1 hop => exact iff_of_true (isUndefined_undefined _) (.inl hop)
  case h_2 hop | h_3 hop | h_4 hop =>
    rw [isUndefined_decodeI8, hop]
    simp
  case h_5 hop =>
    rw [hop]
    split
    next hbit =>
      rw [isUndefined_decodeSH, hbit]
      simp
    next hbit =>
      have hbit : w.getLsbD 3 = false := by simpa using hbit
      have hseven : w.extractLsb' 8 3 = 7 → IsUndefined (decodeZ w) := fun h =>
        (isUndefined_decodeZ w).mpr (.inl h)
      rw [strayBits_iff ((opcode_toNat w).symm.trans hop) hbit, hbit]
      simpa using hseven
  case h_6 hop | h_7 hop | h_8 hop | h_9 hop | h_10 hop =>
    rw [isUndefined_decodeBI, hop]
    simp
  case h_17 =>
    simp only [imp_false] at *
    exact iff_of_false (not_isUndefined_decodeM w) (by omega)
  all_goals
    rw [isUndefined_decodeRR, ‹(w.extractLsb' 11 5).toNat = _›]
    simp

/-! ### An undefined word as a halt -/

theorem runInstruction_undefined {u : State} {why : Undefined} (henc : u.cfg.encoding = .cfg0)
    (hpresent : kindAt u.map u.ic ≠ .absent)
    (hdec : decode (readWord u.mem u.ic) = .undefined why) :
    runInstruction u = .next (raiseHalt .undefinedInstruction u) := by
  simp [runInstruction, fetch, memRead_present hpresent, henc, decodeWord, hdec, Decoded.toOption]

/-- Settles O6: H and an undefined word halt by the same operation. -/
theorem undefinedWordActsAsH : Obligations.UndefinedWordActsAsH := by
  rintro s u why rfl hrst hrun hirq henc hpresent hdec
  refine ⟨raiseHalt .hInstruction (samplePins s), rfl, ?_⟩
  calc step s = boundary (samplePins s) := rfl
    _ = runInstruction (samplePins s) := boundary_running hrst hrun hirq
    _ = .next (raiseHalt .undefinedInstruction (samplePins s)) :=
      runInstruction_undefined henc hpresent hdec

end Sys2Proof
end

section
/-!
SUPPORT. The skip conditions in terms of numbers (R79 to R96): the sign and zero of a result of any
width, and the magnitude of a subtraction.
-/

namespace Sys2Proof.Machine

open Sys2Proof.Config

/-! ### Conditions 0 to 11 -/

theorem msb_iff_toInt_neg {w : Nat} (v : BitVec w) : v.msb = true ↔ v.toInt < 0 := by
  rw [BitVec.msb_eq_toInt, decide_eq_true_eq]

theorem beq_zero_iff_toInt {w : Nat} (v : BitVec w) : (v == 0) = true ↔ v.toInt = 0 := by
  rw [beq_iff_eq, ← BitVec.toInt_inj, BitVec.ofNat_eq_ofNat, BitVec.toInt_zero]

/-- Settles O24: N is the sign of the result and Z its being 0. -/
theorem skipConditionsOfTheResult : Obligations.SkipConditionsOfTheResult := by
  intro w res e v mag
  have hn := msb_iff_toInt_neg res
  have hz := beq_zero_iff_toInt res
  refine ⟨rfl, rfl, hn, ?pz, hz, ?nz, ?mz, ?p, ?ez, Iff.rfl, ?oz, Iff.rfl⟩
  case ez | oz => simp [conditionHolds]
  case nz => simpa [conditionHolds] using not_congr hz
  all_goals
    simp only [conditionHolds, Bool.or_eq_true, Bool.and_eq_true, Bool.not_eq_true',
      ← Bool.not_eq_true, hn, hz]
    omega

/-! ### Conditions 12 to 15 -/

theorem sub_ovf_eq {w : Nat} (hw : 0 < w) (x y : BitVec w) :
    (sub x y).ovf = (x.msb != y.msb && (x - y).msb != x.msb) := by
  have hnot : (~~~y).msb = !y.msb := by simp [BitVec.msb_not, hw]
  have hovf : (sub x y).ovf = (x.msb == (~~~y).msb && (sub x y).res.msb != x.msb) := rfl
  rw [hovf, hnot, sub_res]
  cases x.msb <;> cases y.msb <;> rfl

/-- Operands of one sign have a difference in range. -/
theorem toInt_sub_of_msb_eq {w : Nat} {x y : BitVec w} (h : x.msb = y.msb) :
    (x - y).toInt = x.toInt - y.toInt := by
  refine BitVec.toInt_sub_of_not_ssubOverflow ?_
  have hsign : x.toInt < 0 ↔ y.toInt < 0 := by
    rw [← msb_iff_toInt_neg, ← msb_iff_toInt_neg, h]
  have hxlo := x.le_toInt
  have hxhi := x.toInt_lt
  have hylo := y.le_toInt
  have hyhi := y.toInt_lt
  simp only [BitVec.ssubOverflow, Bool.or_eq_true, decide_eq_true_eq]
  omega

/-- Where the operands have one sign there is no overflow, and where they have two the overflow
corrects the sign of the difference (R96). -/
theorem sub_sign_ne_ovf {w : Nat} (hw : 0 < w) (x y : BitVec w) :
    ((x - y).msb != (sub x y).ovf) = true ↔ x.toInt < y.toInt := by
  rw [sub_ovf_eq hw]
  by_cases hs : x.msb = y.msb
  · have hovf : (x.msb != y.msb && (x - y).msb != x.msb) = false := by simp [hs]
    rw [hovf, Bool.bne_false, msb_iff_toInt_neg, toInt_sub_of_msb_eq hs]
    omega
  · have hne : ((x - y).msb != (x.msb != y.msb && (x - y).msb != x.msb)) = x.msb := by
      generalize x.msb = p, y.msb = q, (x - y).msb = d at hs ⊢
      revert p q d
      decide
    rw [hne, msb_iff_toInt_neg]
    have hsign : ¬ (x.toInt < 0 ↔ y.toInt < 0) := by
      rw [← msb_iff_toInt_neg, ← msb_iff_toInt_neg, ← Bool.eq_iff_iff]
      exact hs
    omega

/-- The number a word stands for in the comparison of conditions 12 to 15 (P_LCOND, R96). -/
def comparedAs {w : Nat} (p : LCond) (v : BitVec w) : Int :=
  if p = .unsigned then (v.toNat : Int) else v.toInt

theorem comparedAs_inj {w : Nat} {p : LCond} {x y : BitVec w} :
    comparedAs p x = comparedAs p y ↔ x = y := by
  cases p
  · simp [comparedAs, BitVec.toNat_inj]
  · simp [comparedAs, BitVec.toInt_inj]

/-- The magnitude after a subtraction is the order of the operands. -/
theorem magnitude_sub (p : LCond) {w : Nat} (x y : BitVec w) :
    magnitude p (x - y) (sub x y).carry (sub x y).ovf =
      if comparedAs p x = comparedAs p y then .eq
      else if comparedAs p x < comparedAs p y then .lt else .gt := by
  unfold magnitude
  have hzero : x - y = 0 ↔ x = y := sub_eq_zero
  simp only [comparedAs_inj, hzero]
  by_cases h : x = y
  · rw [if_pos h, if_pos h]
  · have hw : 0 < w := Nat.pos_of_ne_zero fun hw => h (by subst hw; exact Subsingleton.elim x y)
    rw [if_neg h, if_neg h]
    cases p
    · have hlt : (x.toNat : Int) < y.toNat ↔ ¬ y.toNat ≤ x.toNat := by omega
      simp only [sub_carry, comparedAs, if_true, hlt, ite_not]
    · simp only [sub_sign_ne_ovf hw]
      rfl

/-- Settles O25: the magnitude is the order of the two numbers, which each condition reads. -/
theorem magnitudeConditionsCompare : Obligations.MagnitudeConditionsCompare := by
  rintro w x y p e v _ _ _ rfl rfl rfl
  change (_ ↔ comparedAs p x ≤ comparedAs p y) ∧ (_ ↔ comparedAs p y < comparedAs p x) ∧
    (_ ↔ comparedAs p y ≤ comparedAs p x) ∧ (_ ↔ comparedAs p x < comparedAs p y)
  rw [magnitude_sub]
  split
  next h => simp [conditionHolds, h]
  next h =>
  split
  next hlt => simp [conditionHolds, hlt, hlt.le]
  next hge =>
    have hgt : comparedAs p y < comparedAs p x := lt_of_le_of_ne (not_lt.mp hge) (Ne.symm h)
    simp [conditionHolds, hgt, hgt.le]

end Sys2Proof.Machine
end

section
/-!
SUPPORT. The addressing modes (R66 to R73), the E-register mode before a shift (R78, R192) and the
NOP idiom (R98).
-/

namespace Sys2Proof.Machine

open Sys2Proof.Config

/-! ### Effective addresses -/

theorem relativeBase_eq (s : State) :
    relativeBase s = s.ic + if s.cfg.relBase = .one then 1 else 0 := by
  unfold relativeBase
  cases s.cfg.relBase <;> simp

theorem zext8_toNat_le (d : Byte) : (zext8 d).toNat ≤ 0x00FF := by
  have := d.isLt
  simp only [zext8, BitVec.truncate_eq_setWidth, BitVec.toNat_setWidth]
  omega

/-- Settles O23: each mode is its sum, the pointer word read from memory that is present. -/
theorem effectiveAddressOfModes : Obligations.EffectiveAddressOfModes := by
  intro d s
  rw [← relativeBase_eq]
  refine ⟨rfl, zext8_toNat_le d, rfl, fun hpresent => ?_, ?_, rfl, rfl⟩
  · have hptr : memRead (zext8 d) s = ⟨readWord s.mem (zext8 d), s⟩ := memRead_present hpresent
    simp only [effectiveAddress, hptr]
    exact ⟨rfl, rfl, rfl⟩
  · rintro a rfl hpresent
    exact memRead_present hpresent

/-! ### The E-register mode -/

theorem flagE_setE (s : State) (e : Bool) : (s.setE e).flagE = e :=
  strBit_setStrBit (by omega) (by omega)

/-- Settles O26: SL and SR begin with the mode, so that performing it first changes nothing. -/
theorem eModeBeforeTheShift : Obligations.EModeBeforeTheShift := by
  intro em s
  obtain ⟨x, hx⟩ := applyEm_after em s
  have hrest : SameMemory s (applyEm em s) ∧ SameIo s (applyEm em s) ∧
      (applyEm em s).ic = s.ic := by
    rw [hx]; exact ⟨fun _ => rfl, ⟨rfl, rfl⟩, rfl⟩
  obtain ⟨hmem, hio, hic⟩ := hrest
  refine ⟨?_, applyEm_frame em s, hmem, hio, hic, fun rn c => ⟨rfl, rfl⟩⟩
  cases em
  case keep => rfl
  all_goals exact flagE_setE s _

/-! ### The NOP idiom -/

/-- A register that received a value just read from it is as before; of STR the unused bits may
differ (R24). -/
theorem frame_of_writtenBack {rn : Reg} {v : Word} {s t : State} (hread : ReadsAs rn s v)
    (hwrite : WrittenAs rn v [] s t) (hframe : Frame [rn] [] s t) :
    Frame [] (if rn = .str then unusedBits else []) s t := by
  obtain ⟨hreg, hbits, hrest⟩ := hframe
  have hsame : ∀ r, r ≠ .str → t.reg r = s.reg r := by
    intro r hr
    by_cases hrn : r = rn
    · subst hrn
      cases r
      case str => exact absurd rfl hr
      all_goals exact Eq.trans hwrite hread
    · exact hreg r hr (by simpa using hrn)
  refine ⟨fun r hr _ => hsame r hr, fun _ n hn hfree => ?_, hrest⟩
  by_cases hrn : rn = .str
  · subst hrn
    have hused : n ∉ unusedBits := hfree
    exact (hwrite.1 n hn hused (by simp)).trans (hread.1 n hn hused)
  · exact hbits (by simpa using Ne.symm hrn) n hn (by simp)

/-- Settles O46: the register receives the value just read from it, and the condition never holds. -/
theorem nopIdiom : Obligations.NopIdiom := by
  intro rn s
  obtain ⟨n, hn⟩ := readReg_after rn s
  generalize hv : (readReg rn s).value = v
  have hexec : exec (.mv rn rn .never) s =
      .next (finishFree .never v (writeReg rn v { s with draws := n })) := by
    rw [← hn, ← hv]; rfl
  obtain ⟨hwrite, ⟨mag, hic⟩, hframe, hmem, hio⟩ := finishFree_writeReg rn v .never v s n _ rfl
  have hread : ReadsAs rn s v := hv ▸ readReg_readsAs rn s
  exact ⟨_, hexec, hic, frame_of_writtenBack hread hwrite hframe, hmem, hio⟩

end Sys2Proof.Machine
end

section
/-!
SUPPORT. The memory operation instructions L, ST, IMS and DMS (R120 to R123): the operand word at
the effective address, and a load or a store followed by the move of IC.
-/

namespace Sys2Proof.Machine

/-! ### The word at the effective address -/

/-- What a read may give does not depend on how many free values were drawn before it. -/
theorem loadsAs_draws {a v : Word} {s : State} {n : Nat} :
    LoadsAs a { s with draws := n } v ↔ LoadsAs a s v := Iff.rfl

/-- Forming the effective address and reading the word there changes the count of drawn values
alone, and gives a value that a read in the state before may give (R74, R120). -/
theorem memRead_effectiveAddress (ea : Ea) (s : State) :
    ∃ v n, LoadsAs (effectiveAddress ea s).value s v ∧
      memRead (effectiveAddress ea s).value (effectiveAddress ea s).after =
        { value := v, after := { s with draws := n } } := by
  obtain ⟨k, hea⟩ := effectiveAddress_after ea s
  obtain ⟨n, hread⟩ := memRead_after (effectiveAddress ea s).value { s with draws := k }
  have hloads := memRead_loadsAs (effectiveAddress ea s).value { s with draws := k }
  rw [hea]
  exact ⟨_, n, loadsAs_draws.mp hloads, by rw [← hread]⟩

/-! ### A register or a word written, and IC moved -/

theorem reg_of_writtenAs {r : Reg} {v : Word} {free : List Nat} {s t : State} (hr : r ≠ .str)
    (h : WrittenAs r v free s t) : t.reg r = v := by
  cases r
  case str => exact absurd rfl hr
  all_goals exact h

theorem memWrite_ic (a v : Word) (s : State) : (memWrite a v s).ic = s.ic := by
  obtain ⟨m, hm, -⟩ := memWrite_after a v s
  rw [hm]

theorem memWrite_io (a v : Word) (s : State) : SameIo s (memWrite a v s) := by
  obtain ⟨m, hm, -⟩ := memWrite_after a v s
  rw [hm]; exact ⟨rfl, rfl⟩

/-- Where a store lands, in the terms of the statements (R121, 93 U9). -/
theorem memWrite_stores (a v : Word) {s : State} (hwf : Memory.wf s.mem = true) :
    StoredAt a v s (memWrite a v s) ∧ SameMemoryOutside [a] s (memWrite a v s) := by
  obtain ⟨m, hm, -, hword, hbytes⟩ := memWrite_spec a v hwf
  rw [hm]
  refine ⟨hword, fun k hk => ?_⟩
  obtain ⟨hlow, hhigh⟩ := hk a (List.mem_singleton_self a)
  exact hbytes k hlow hhigh

/-- The end of an instruction that loads a register (R17, R120). -/
theorem advance_writeReg {r : Reg} (hr : r ≠ .str) (v : Word) (s : State) (n : Nat) (skip : Bool)
    (t : State) (ht : t = advance skip (writeReg r v { s with draws := n })) :
    t.reg r = v ∧ t.ic = s.ic + (if skip then 2 else 1) ∧ Frame [r] [] s t ∧ SameMemory s t ∧
      SameIo s t := by
  subst ht
  have hadvance := advance_frame skip (writeReg r v { s with draws := n })
  have hwritten := writtenAs_frame (writeReg_writtenAs r v { s with draws := n }) hadvance
    (List.Subset.refl []) (by simp) (by simp)
  have hframe := frame_trans (frame_trans (frame_draws [r] [] s n) (writeReg_frame r v _))
    (frame_mono hadvance (List.nil_subset _) (List.Subset.refl []))
  have hic : (advance skip (writeReg r v { s with draws := n })).ic =
      s.ic + (if skip then 2 else 1) := by
    rw [advance_ic, writeReg_ic]
  have hmem := writeReg_mem r v { s with draws := n }
  have hio := writeReg_io r v { s with draws := n }
  exact ⟨reg_of_writtenAs hr hwritten, hic, hframe, sameMemory_of_eq hmem, hio⟩

/-- The end of an instruction that stores a word (R17, R121). -/
theorem advance_memWrite (a v : Word) {s : State} (hwf : Memory.wf s.mem = true) (n : Nat)
    (skip : Bool) (t : State) (ht : t = advance skip (memWrite a v { s with draws := n })) :
    StoredAt a v s t ∧ SameMemoryOutside [a] s t ∧ t.ic = s.ic + (if skip then 2 else 1) ∧
      Frame [] [] s t ∧ SameIo s t := by
  subst ht
  obtain ⟨hstored, houtside⟩ := memWrite_stores a v (s := { s with draws := n }) hwf
  have hframe := frame_trans (frame_trans (frame_draws [] [] s n) (memWrite_frame a v _))
    (advance_frame skip _)
  have hic : (advance skip (memWrite a v { s with draws := n })).ic =
      s.ic + (if skip then 2 else 1) := by
    rw [advance_ic, memWrite_ic]
  exact ⟨hstored, houtside, hic, hframe, memWrite_io a v { s with draws := n }⟩

/-! ### IMS and DMS -/

/-- Counting by `delta` stores the changed word, and skips exactly when the word was `-delta`: then
the new value is zero (R122, R123). -/
theorem countMemory_does (delta : Word) (ea : Ea) {s : State} (hwf : Memory.wf s.mem = true) :
    ∃ v, LoadsAs (effectiveAddress ea s).value s v ∧
      StoredAt (effectiveAddress ea s).value (v + delta) s (countMemory delta ea s) ∧
      (countMemory delta ea s).ic = s.ic + (if v = -delta then 2 else 1) ∧
      SameMemoryOutside [(effectiveAddress ea s).value] s (countMemory delta ea s) ∧
      Frame [] [] s (countMemory delta ea s) ∧ SameIo s (countMemory delta ea s) := by
  obtain ⟨v, n, hloads, hread⟩ := memRead_effectiveAddress ea s
  have hcount : countMemory delta ea s =
      advance (v + delta == 0)
        (memWrite (effectiveAddress ea s).value (v + delta) { s with draws := n }) := by
    simp only [countMemory, hread]
  obtain ⟨hstored, houtside, hic, hframe, hio⟩ := advance_memWrite _ _ hwf n _ _ hcount
  refine ⟨v, hloads, hstored, ?_, houtside, hframe, hio⟩
  simpa only [beq_iff_eq, add_eq_zero_iff_eq_neg] using hic

/-! ### The statements -/

/-- Settles O34: the word read at the effective address is the value written to the register. -/
theorem loadResult : Obligations.LoadResult := by
  rintro r ea s a hr rfl
  obtain ⟨v, n, hloads, hread⟩ := memRead_effectiveAddress ea s
  have hexec : exec (.l r ea) s = .next (advance false (writeReg r v { s with draws := n })) := by
    simp only [exec, execL, hread]
  exact ⟨v, _, hloads, hexec, advance_writeReg hr v s n false _ rfl⟩

/-- Settles O35: the register is read as it stands, for forming the address changes no register. -/
theorem storeResult : Obligations.StoreResult := by
  rintro r ea s a hr hwf rfl
  obtain ⟨n, hea⟩ := effectiveAddress_after ea s
  have hreg : readReg r { s with draws := n } = ⟨s.reg r, { s with draws := n }⟩ := by
    rw [readReg_ne_str hr, (frame_draws [] [] s n).1 r hr List.not_mem_nil]
  have hexec : exec (.st r ea) s = .next (advance false
      (memWrite (effectiveAddress ea s).value (s.reg r) { s with draws := n })) := by
    simp only [exec, execSt, hea, hreg]
  exact ⟨_, hexec, advance_memWrite _ _ hwf n false _ rfl⟩

/-- Settles O36: IMS counts by 1 and skips from 0xFFFF = -1; DMS counts by -1 and skips from 1. -/
theorem countMemoryResult : Obligations.CountMemoryResult := by
  rintro ea s a hwf rfl
  have hims : -(1 : Word) = 0xFFFF := by decide
  have hdms : -(-1 : Word) = 0x0001 := by decide
  constructor
  · obtain ⟨v, hloads, hrest⟩ := countMemory_does 1 ea hwf
    rw [hims] at hrest
    exact ⟨v, _, hloads, rfl, hrest⟩
  · obtain ⟨v, hloads, hrest⟩ := countMemory_does (-1) ea hwf
    rw [hdms, ← sub_eq_add_neg] at hrest
    exact ⟨v, _, hloads, rfl, hrest⟩

end Sys2Proof.Machine
end

section
/-!
SUPPORT. The stack (R133) and the branch instructions B, BAL and RET (R130 to R132): what a push and
a pop do, when a pop finds what was pushed, and the return from a call.
-/

namespace Sys2Proof.Machine

open Sys2Proof.Config

/-! ### The registers of a framed state -/

theorem bitPosition_bitPosition (o : BitOrder) {i : Nat} (hi : i < 16) :
    bitPosition o (bitPosition o i) = i := by
  cases o with
  | lsb0 => rfl
  | msb0 => simp only [bitPosition]; omega

/-- STR is its sixteen numbered bits (R19). -/
theorem str_eq_of_strBit {s t : State} (hcfg : t.cfg = s.cfg)
    (h : ∀ n, n < 16 → t.strBit n = s.strBit n) : t.str = s.str := by
  refine BitVec.eq_of_getLsbD_eq fun i hi => ?_
  have hbit := h _ (bitPosition_lt (o := s.cfg.bitOrder) hi)
  simpa only [State.strBit, hcfg, bitPosition_bitPosition _ hi] using hbit

/-- Every register a frame does not except is as it was, STR too when no bit of it is excepted. -/
theorem reg_of_frame {regs : List Reg} {s t : State} (h : Frame regs [] s t) {r : Reg}
    (hr : r ∉ regs) : t.reg r = s.reg r := by
  obtain ⟨hreg, hbits, ⟨-, hcfg, -, -⟩, -⟩ := h
  by_cases hstr : r = .str
  · subst hstr
    exact str_eq_of_strBit hcfg fun n hn => hbits hr n hn List.not_mem_nil
  · exact hreg r hstr hr

/-! ### Push -/

theorem push_eq_writeReg (v : Word) (s : State) :
    push v s = writeReg .sp (pushedSp s) (memWrite (pushAddress s) v s) := rfl

theorem push_frame (v : Word) (s : State) : Frame [.sp] [] s (push v s) := by
  rw [push_eq_writeReg]
  exact frame_trans (frame_mono (memWrite_frame _ v s) (List.nil_subset _) (List.Subset.refl _))
    (writeReg_frame .sp _ _)

theorem push_io (v : Word) (s : State) : SameIo s (push v s) := memWrite_io (pushAddress s) v s

theorem push_stores (v : Word) {s : State} (hwf : Memory.wf s.mem = true) :
    StoredAt (pushAddress s) v s (push v s) ∧ SameMemoryOutside [pushAddress s] s (push v s) :=
  memWrite_stores (pushAddress s) v hwf

/-! ### Pop -/

theorem pop_frame (s : State) : Frame [.sp] [] s (pop s).after := by
  obtain ⟨⟨n, hn⟩, -⟩ := pop_after s
  rw [hn]
  exact frame_trans (writeReg_frame .sp (poppedSp s) s) (frame_draws _ _ _ n)

/-! ### Pop after push -/

/-- In every discipline the pop reads where the push stored (R133). -/
theorem popAddress_of_pushed {s t : State} (hcfg : t.cfg = s.cfg) (hsp : t.sp = pushedSp s) :
    popAddress t = pushAddress s := by
  unfold popAddress pushAddress
  rw [hcfg, hsp]
  unfold pushedSp
  cases s.cfg.stack <;> simp

/-- In every discipline the pop moves SP back by what the push moved it (R133). -/
theorem poppedSp_of_pushed {s t : State} (hcfg : t.cfg = s.cfg) (hsp : t.sp = pushedSp s) :
    poppedSp t = s.sp := by
  unfold poppedSp
  rw [hcfg, hsp]
  unfold pushedSp
  cases s.cfg.stack <;> simp

/-- A pop finds the value stored by a push since which SP and the stack word stayed (R133). -/
theorem pop_of_pushed {s t : State} {v : Word} (hram : kindAt s.map (pushAddress s) = .ram)
    (hframe : Frame [.sp] [] s t) (hsp : t.sp = pushedSp s)
    (hstored : StoredAt (pushAddress s) v s t) : pop t = ⟨v, { t with sp := s.sp }⟩ := by
  obtain ⟨-, -, ⟨hmap, hcfg, -, -⟩, -⟩ := hframe
  have hword : readWord t.mem (pushAddress s) = v := hstored.trans (if_pos hram)
  have hpresent : kindAt t.map (pushAddress s) ≠ .absent := by simp [hmap, hram]
  have hread : memRead (popAddress t) t = ⟨v, t⟩ := by
    rw [popAddress_of_pushed hcfg hsp, memRead_present hpresent, hword]
  simp only [pop, hread, poppedSp_of_pushed hcfg hsp]

/-- Settles O27: the table of the four disciplines, and `pop_of_pushed`. -/
theorem stackDisciplines : Obligations.StackDisciplines := by
  intro v s
  refine ⟨fun h => ?pushPostDec, fun h => ?pushPreDec, fun h => ?pushPostInc, fun h => ?pushPreInc,
    fun hwf hram => ?popAfterPush⟩
  case popAfterPush =>
    have hpop := pop_of_pushed hram (push_frame v s) rfl (push_stores v hwf).1
    rw [hpop]
    exact ⟨rfl, rfl⟩
  all_goals simp only [push, pushAddress, pushedSp, pop, popAddress, poppedSp, h, and_self]

/-! ### B, BAL and RET -/

/-- Settles O37: forming the address changes the count of drawn values alone. -/
theorem branchResult : Obligations.BranchResult := by
  intro ea s
  obtain ⟨n, hea⟩ := effectiveAddress_after ea s
  have hexec : exec (.b ea) s =
      .next (({ s with draws := n } : State).setIc (effectiveAddress ea s).value) := by
    simp only [exec, execB, hea]
  have hframe := frame_trans (frame_draws [] [] s n) (setIc_frame (effectiveAddress ea s).value _)
  exact ⟨_, hexec, rfl, hframe, fun _ => rfl, rfl, rfl⟩

/-- Settles O38: drawing a free value for the address moves neither SP nor the stack word. -/
theorem callResult : Obligations.CallResult := by
  rintro ea s a hwf rfl
  obtain ⟨n, hea⟩ := effectiveAddress_after ea s
  have hexec : exec (.bal ea) s =
      .next ((push (s.ic + 1) { s with draws := n }).setIc (effectiveAddress ea s).value) := by
    simp only [exec, execBal, hea]
  obtain ⟨hstored, houtside⟩ := push_stores (s.ic + 1) (s := { s with draws := n }) hwf
  have hframe := frame_trans (frame_trans (frame_draws [.sp] [] s n) (push_frame (s.ic + 1) _))
    (frame_mono (setIc_frame (effectiveAddress ea s).value _) (List.nil_subset _)
      (List.Subset.refl _))
  exact ⟨_, hexec, rfl, hstored, houtside, rfl, hframe, push_io (s.ic + 1) { s with draws := n }⟩

/-- Settles O39: a pop, and IC is the value popped. -/
theorem returnResult : Obligations.ReturnResult := by
  intro s
  obtain ⟨⟨n, hafter⟩, hloads⟩ := pop_after s
  have hexec : exec .ret s = .next ((pop s).after.setIc (pop s).value) := rfl
  have hframe := frame_trans (pop_frame s) (frame_mono (setIc_frame (pop s).value (pop s).after)
    (List.nil_subset _) (List.Subset.refl _))
  rw [hafter] at hexec hframe
  exact ⟨_, hexec, hloads, rfl, hframe, fun _ => rfl, rfl, rfl⟩

/-- Settles O29: RET pops the Link that BAL stored. -/
theorem callThenReturn : Obligations.CallThenReturn := by
  intro ea s hwf hram
  obtain ⟨t, hcall, -, hlink, -, hsp, hframe, -⟩ := callResult ea s _ hwf rfl
  have hpop : pop t = ⟨s.ic + 1, { t with sp := s.sp }⟩ := pop_of_pushed hram hframe hsp hlink
  have hret : exec .ret t = .next (({ t with sp := s.sp } : State).setIc (s.ic + 1)) := by
    simp only [exec, execRet, hpop]
  refine ⟨t, _, hcall, hret, rfl, fun r => ?_⟩
  by_cases hr : r = .sp
  · subst hr; rfl
  · calc (({ t with sp := s.sp } : State).setIc (s.ic + 1)).reg r
        = (writeReg .sp s.sp t).reg r := reg_of_frame (setIc_frame _ _) List.not_mem_nil
      _ = t.reg r := writeReg_reg_ne hr s.sp t
      _ = s.reg r := reg_of_frame hframe (by simpa using hr)

end Sys2Proof.Machine
end

section
/-!
SUPPORT. The arithmetic instructions A and S (R140 to R142): both operands read first, then the
adder's outputs written to Rd, E and V.
-/

namespace Sys2Proof.Machine

open Sys2Proof.Config

/-- Reading the two operands changes the count of drawn values alone, and gives values the operands
may have (R142). -/
theorem readPair_spec (rd rs : Reg) (s : State) :
    ∃ x y n, OperandsRead rd rs s x y ∧
      readPair rd rs s = { dst := x, src := y, after := { s with draws := n } } := by
  obtain ⟨n, hafter⟩ := readPair_after rd rs s
  exact ⟨_, _, n, readPair_operands rd rs s, by rw [← hafter]⟩

/-- Settles O40: the adder's carry is the sum leaving 16 bits unsigned, its overflow the sum leaving
16 bits signed. -/
theorem addResult : Obligations.AddResult := by
  intro rd rs c s
  obtain ⟨x, y, n, hoperands, hread⟩ := readPair_spec rd rs s
  have hexec : exec (.a rd rs c) s =
      .next (finish c (x + y) (magnitude s.cfg.lcond (x + y) (add x y false).carry
          (add x y false).ovf)
        (writeFlags rd (add x y false).carry (add x y false).ovf
          (writeReg rd (x + y) { s with draws := n }))) := by
    simp only [exec, execA, hread, add_res]
  obtain ⟨hwritten, hflags, hskips, hframe, hmem, hio⟩ := finish_writeFlags rd _ c _ _ _ _ s n _ rfl
  refine ⟨x, y, _, hoperands, hexec, hwritten, fun hrd => ?_, hskips, hframe, hmem, hio⟩
  obtain ⟨hE, hV⟩ := hflags hrd
  rw [hE, hV]
  exact ⟨add_carry x y, add_ovf_word x y⟩

/-- Settles O41: the adder's carry is "no borrow", from which P_E_ON_SUB makes E, its overflow the
difference leaving 16 bits signed. -/
theorem subtractResult : Obligations.SubtractResult := by
  intro rd rs c s
  obtain ⟨x, y, n, hoperands, hread⟩ := readPair_spec rd rs s
  have hexec : exec (.s rd rs c) s =
      .next (finish c (x - y) (magnitude s.cfg.lcond (x - y) (sub x y).carry (sub x y).ovf)
        (writeFlags rd (eOfSub s.cfg.eOnSub (sub x y).carry) (sub x y).ovf
          (writeReg rd (x - y) { s with draws := n }))) := by
    simp only [exec, execS, hread, sub_res]
  obtain ⟨hwritten, hflags, hskips, hframe, hmem, hio⟩ := finish_writeFlags rd _ c _ _ _ _ s n _ rfl
  refine ⟨x, y, _, hoperands, hexec, hwritten, fun hrd => ?_, hskips, hframe, hmem, hio⟩
  obtain ⟨hE, hV⟩ := hflags hrd
  rw [hE, hV]
  exact ⟨eOfSub_iff (sub_carry x y), sub_ovf_word x y⟩

end Sys2Proof.Machine
end

section
/-!
SUPPORT. The logical instructions AND, OR and EOR (R150 to R152) and the CLR idiom (R153): both
operands read first, then their combination written to Rd; no flag is written.
-/

namespace Sys2Proof.Machine

/-- What AND, OR and EOR share, for any combination of the operands: Rd receives it, it is what the
condition is judged on, and nothing but Rd and IC changes (R150 to R152). -/
theorem combine_does (f : Word → Word → Word) {rd rs : Reg} {c : Cond} {s : State} {i : Instr}
    (h : exec i s = .next (combine f rd rs c s)) :
    ∃ x y t, OperandsRead rd rs s x y ∧ exec i s = .next t ∧ WrittenAs rd (f x y) [] s t ∧
      SkipsFreely c (f x y) s t ∧ Frame [rd] [] s t ∧ SameMemory s t ∧ SameIo s t := by
  obtain ⟨x, y, n, hoperands, hread⟩ := readPair_spec rd rs s
  have hcombine : combine f rd rs c s =
      finishFree c (f x y) (writeReg rd (f x y) { s with draws := n }) := by
    simp only [combine, hread]
  exact ⟨x, y, _, hoperands, h, finishFree_writeReg rd _ c _ s n _ hcombine⟩

/-- Settles O42: the three instructions are `combine` with their bitwise operation. -/
theorem logicalResult : Obligations.LogicalResult := fun _ _ _ _ =>
  ⟨combine_does (· &&& ·) rfl, combine_does (· ||| ·) rfl, combine_does (· ^^^ ·) rfl⟩

/-- A condition that never holds moves IC to the next word, whatever the magnitude (R17, R80). -/
theorem ic_of_skipsFreely_never {w : Nat} {res : BitVec w} {s t : State}
    (h : SkipsFreely .never res s t) : t.ic = s.ic + 1 := by
  obtain ⟨mag, hic⟩ := h
  exact hic

/-- Settles O43: the two operands of EOR Rn,Rn are one value, so their combination is 0. -/
theorem clearMacro : Obligations.ClearMacro := by
  refine ⟨by decide, fun rn s => ?_⟩
  obtain ⟨-, -, x, y, t, ⟨-, -, hsame⟩, hexec, hwritten, hskips, hrest⟩ :=
    logicalResult rn rn .never s
  have hzero : x ^^^ y = 0 := by rw [hsame rfl]; exact BitVec.xor_self
  rw [hzero] at hwritten
  exact ⟨t, hexec, hwritten, ic_of_skipsFreely_never hskips, hrest⟩

end Sys2Proof.Machine
end

section
/-!
SUPPORT. The compare instructions C and CB (R160, R161): both operands read first, then the difference
of the words, or of the lower bytes, judged and not stored.
-/

namespace Sys2Proof.Machine

/-- What C and CB share, at every width: where P_FLAGS_CMP updates them, E is "no borrow" under
P_E_ON_SUB and V the signed overflow; of registers, no bit but those two changes (R160, 92 D13). -/
theorem compareValues_compares {w : Nat} {x y : BitVec w} {outOfRange : Prop}
    (hovf : (sub x y).ovf = true ↔ outOfRange) (c : Cond) (s : State) (n : Nat) (t : State)
    (ht : t = compareValues x y c { s with draws := n }) :
    (s.cfg.flagsCmp = .update →
      (t.flagE = true ↔ (y.toNat ≤ x.toNat ↔ s.cfg.eOnSub = .carry)) ∧
      (t.flagV = true ↔ outOfRange)) ∧
    (s.cfg.flagsCmp = .keep → t.flagE = s.flagE ∧ t.flagV = s.flagV) ∧
    SkipsOn c (x - y) (magnitude s.cfg.lcond (x - y) (sub x y).carry (sub x y).ovf) s t ∧
    Frame [] [0, 2] s t ∧ SameMemory s t ∧ SameIo s t := by
  obtain ⟨hupdate, hrest⟩ := compareValues_does x y c s n t ht
  refine ⟨fun hpolicy => ?_, hrest⟩
  obtain ⟨hE, hV⟩ := hupdate hpolicy
  rw [hE, hV]
  exact ⟨eOfSub_iff (sub_carry x y), hovf⟩

/-- Settles O44: both instructions are `compareValues`, C on the words read and CB on their lower
bytes. -/
theorem compareResult : Obligations.CompareResult := by
  intro rd rs c s
  obtain ⟨x, y, n, hoperands, hread⟩ := readPair_spec rd rs s
  have hword : exec (.c rd rs c) s = .next (compareValues x y c { s with draws := n }) := by
    simp only [exec, execC, hread]
  have hbyte : exec (.cb rd rs c) s =
      .next (compareValues (lowByte x) (lowByte y) c { s with draws := n }) := by
    simp only [exec, execCb, hread]
  constructor
  · exact ⟨x, y, _, hoperands, hword, compareValues_compares (sub_ovf_word x y) c s n _ rfl⟩
  · exact ⟨x, y, _, _, _, hoperands, rfl, rfl, hbyte,
      compareValues_compares (sub_ovf_byte (lowByte x) (lowByte y)) c s n _ rfl⟩

end Sys2Proof.Machine
end

section
/-!
SUPPORT. The move and swap instructions MV, MVB, BSWP and DSWP (R170 to R173): the values they put
together from bytes and digits, as numbers, and the move of a function of Rs to Rd.
-/

namespace Sys2Proof.Machine

open Sys2Proof.Config

/-! ### The values moved -/

theorem swapBytes_toNat (v : Word) :
    (swapBytes v).toNat = v.toNat % 256 * 256 + v.toNat / 256 := by
  have := v.isLt
  simp only [swapBytes, lowByte, highByte, toNat_append_add, BitVec.extractLsb'_toNat,
    Nat.shiftRight_eq_div_pow]
  omega

theorem swapDigits_toNat (v : Word) :
    (swapDigits v).toNat =
      digit v 3 * 4096 + digit v 1 * 256 + digit v 2 * 16 + digit v 0 := by
  simp only [swapDigits, digit, toNat_append_add, BitVec.extractLsb'_toNat,
    Nat.shiftRight_eq_div_pow]
  omega

/-- DSWP exchanges digits 1 and 2 and keeps the outer ones (R173). -/
theorem digit_swapDigits (v : Word) :
    digit (swapDigits v) 0 = digit v 0 ∧ digit (swapDigits v) 1 = digit v 2 ∧
      digit (swapDigits v) 2 = digit v 1 ∧ digit (swapDigits v) 3 = digit v 3 := by
  have hlt (i : Nat) : digit v i < 16 := Nat.mod_lt _ (by decide)
  have hdigit (i : Nat) : digit (swapDigits v) i = (swapDigits v).toNat / 16 ^ i % 16 := rfl
  simp only [hdigit, swapDigits_toNat]
  have := hlt 0; have := hlt 1; have := hlt 2; have := hlt 3
  omega

theorem lowByte_mvbResult (p : MvbUpper) (old : Word) (b : Byte) :
    lowByte (mvbResult p old b) = b := by
  cases p with
  | keep => exact lowByte_append (highByte old) b
  | zero => exact lowByte_append 0 b

theorem highByte_mvbResult (p : MvbUpper) (old : Word) (b : Byte) :
    highByte (mvbResult p old b) = if p = .keep then highByte old else 0 := by
  cases p with
  | keep => exact highByte_append (highByte old) b
  | zero => exact highByte_append 0 b

/-! ### The statements -/

/-- What MV, BSWP and DSWP share, for any function of Rs: Rd receives its value, that is what the
condition is judged on, and nothing but Rd and IC changes (R170, R172, R173). -/
theorem moveThrough_does (f : Word → Word) {rd rs : Reg} {c : Cond} {s : State} {i : Instr}
    (h : exec i s = .next (moveThrough f rd rs c s)) :
    ∃ y t, ReadsAs rs s y ∧ exec i s = .next t ∧ WrittenAs rd (f y) [] s t ∧
      SkipsFreely c (f y) s t ∧ Frame [rd] [] s t ∧ SameMemory s t ∧ SameIo s t := by
  obtain ⟨n, hafter⟩ := readReg_after rs s
  have hmove : moveThrough f rd rs c s =
      finishFree c (f (readReg rs s).value)
        (writeReg rd (f (readReg rs s).value) { s with draws := n }) := by
    simp only [moveThrough, hafter]
  exact ⟨_, _, readReg_readsAs rs s, h, finishFree_writeReg rd _ c _ s n _ hmove⟩

/-- Settles O45: the three instructions are `moveThrough` with the identity and the two exchanges. -/
theorem moveResult : Obligations.MoveResult := by
  intro rd rs c s
  refine ⟨moveThrough_does id rfl, ?_, ?_⟩
  · have hbswp : exec (.bswp rd rs c) s = .next (moveThrough swapBytes rd rs c s) := rfl
    obtain ⟨y, t, hread, hexec, hmoved⟩ := moveThrough_does swapBytes hbswp
    exact ⟨y, swapBytes y, t, hread, hexec, swapBytes_toNat y, hmoved⟩
  · have hdswp : exec (.dswp rd rs c) s = .next (moveThrough swapDigits rd rs c s) := rfl
    obtain ⟨y, t, hread, hexec, hmoved⟩ := moveThrough_does swapDigits hdswp
    exact ⟨y, swapDigits y, t, hread, hexec, digit_swapDigits y, hmoved⟩

/-- Settles O47: the word written is `mvbResult` of the old Rd and the lower byte of Rs, and that
byte is the value judged. -/
theorem moveByteResult : Obligations.MoveByteResult := by
  intro rd rs c s
  obtain ⟨x, y, n, hoperands, hread⟩ := readPair_spec rd rs s
  have hexec : exec (.mvb rd rs c) s =
      .next (finishFree c (lowByte y)
        (writeReg rd (mvbResult s.cfg.mvbUpper x (lowByte y)) { s with draws := n })) := by
    simp only [exec, execMvb, hread]
  exact ⟨x, y, _, lowByte y, _, hoperands, hexec, rfl, lowByte_mvbResult _ x _,
    highByte_mvbResult _ x _, finishFree_writeReg rd _ c _ s n _ rfl⟩

end Sys2Proof.Machine
end

section
/-!
SUPPORT. The decimal adjust instruction LAD (R185, R186): the word with given digits, the carries out
of the digits of a binary and of a decimal addition, and the decimal sum that LAD's pattern corrects a
biased binary addition to.
-/

namespace Sys2Proof.Machine

/-! ### The digits of a word -/

/-- The number whose digits to the base `base` are `d 0` to `d 3`. -/
def ofDigits (base : Nat) (d : Nat → Nat) : Nat :=
  d 0 + base * d 1 + base ^ 2 * d 2 + base ^ 3 * d 3

theorem toNat_eq_ofDigits (v : Word) : v.toNat = ofDigits 16 (digit v) := by
  have := v.isLt
  simp only [ofDigits, digit]
  omega

theorem ofDigits_congr {base : Nat} {d e : Nat → Nat} (h : ∀ i, i < 4 → d i = e i) :
    ofDigits base d = ofDigits base e := by
  rw [ofDigits, ofDigits, h 0 (by decide), h 1 (by decide), h 2 (by decide), h 3 (by decide)]

theorem ofDigits_lt {d : Nat → Nat} (hd : ∀ i, i < 4 → d i < 16) : ofDigits 16 d < 65536 := by
  have h0 := hd 0 (by decide)
  have h1 := hd 1 (by decide)
  have h2 := hd 2 (by decide)
  have h3 := hd 3 (by decide)
  simp only [ofDigits]
  omega

/-- A word has one way to be put together from four digits. -/
theorem digit_of_toNat_eq {v : Word} {d : Nat → Nat} (hv : v.toNat = ofDigits 16 d)
    (hd : ∀ i, i < 4 → d i < 16) {i : Nat} (hi : i < 4) : digit v i = d i := by
  have h0 := hd 0 (by decide)
  have h1 := hd 1 (by decide)
  have h2 := hd 2 (by decide)
  have h3 := hd 3 (by decide)
  simp only [ofDigits] at hv
  interval_cases i <;> simp only [digit] <;> omega

/-! ### The carries -/

/-- The carry out of digit `i` as a number. -/
def carryOut (limit : Nat) (a b : Word) (i : Nat) : Nat := (digitCarry limit a b i).toNat

/-- The carry into digit `i`. -/
def carryIn (limit : Nat) (a b : Word) : Nat → Nat
  | 0 => 0
  | i + 1 => carryOut limit a b i

theorem digitCarry_iff (limit : Nat) (a b : Word) (i : Nat) :
    digitCarry limit a b i = true ↔ limit ≤ digit a i + digit b i + carryIn limit a b i := by
  cases i <;> simp [digitCarry, carryIn, carryOut]

/-- A digit put above `m`, where `m` is a sum of two numbers below `B`, reaches `16 * B` when it does
with the carry out of `m` counted. -/
theorem reaches_iff_with_carry {B m d : Nat} (hB : 0 < B) (hm : m < 2 * B) :
    16 * B ≤ B * d + m ↔ 16 ≤ d + (decide (B ≤ m)).toNat := by
  have hcarry : m / B = (decide (B ≤ m)).toNat := by
    by_cases h : B ≤ m
    · simp only [h, decide_true, Bool.toNat_true]
      exact Nat.div_eq_of_lt_le (by omega) (by omega)
    · simp only [h, decide_false, Bool.toNat_false]
      exact Nat.div_eq_of_lt (by omega)
  rw [← Nat.le_div_iff_mul_le hB, Nat.mul_add_div hB, hcarry]

/-- A digit carries when the digits up to it together do (R185). -/
theorem digitCarry_binary (a b : Word) (i : Nat) :
    digitCarry 16 a b i =
      decide (16 ^ (i + 1) ≤ a.toNat % 16 ^ (i + 1) + b.toNat % 16 ^ (i + 1)) := by
  induction i with
  | zero => simp [digitCarry, digit]
  | succ i ih =>
    have hpos : 0 < 16 ^ (i + 1) := Nat.pow_pos (by decide)
    have ha := Nat.mod_lt a.toNat hpos
    have hb := Nat.mod_lt b.toNat hpos
    have hreach := reaches_iff_with_carry (d := digit a (i + 1) + digit b (i + 1)) hpos
      (show a.toNat % 16 ^ (i + 1) + b.toNat % 16 ^ (i + 1) < 2 * 16 ^ (i + 1) by omega)
    have hsum : a.toNat % 16 ^ (i + 1 + 1) + b.toNat % 16 ^ (i + 1 + 1) =
        16 ^ (i + 1) * (digit a (i + 1) + digit b (i + 1)) +
          (a.toNat % 16 ^ (i + 1) + b.toNat % 16 ^ (i + 1)) := by
      simp only [Nat.mod_pow_succ (k := i + 1), digit]
      ring
    rw [digitCarry, ih, hsum, decide_eq_decide, pow_succ' 16 (i + 1), hreach]

/-! ### The pattern -/

theorem carryPattern_toNat (limit : Nat) (a b : Word) :
    (carryPattern limit a b).toNat = 6 * ofDigits 16 (carryOut limit a b) := by
  have hdigit (c : Bool) : (if c then 6 else 0 : BitVec 4).toNat = 6 * c.toNat := by
    cases c <;> rfl
  simp only [carryPattern, toNat_append_add, hdigit, ofDigits, carryOut]
  ring

theorem digit_carryPattern (limit : Nat) (a b : Word) {i : Nat} (hi : i < 4) :
    digit (carryPattern limit a b) i = if digitCarry limit a b i then 6 else 0 := by
  have hval : (carryPattern limit a b).toNat = ofDigits 16 fun j => 6 * carryOut limit a b j := by
    rw [carryPattern_toNat]
    simp only [ofDigits]
    ring
  have hlt (j : Nat) (_ : j < 4) : 6 * carryOut limit a b j < 16 := by
    have := Bool.toNat_le (digitCarry limit a b j)
    simp only [carryOut]
    omega
  rw [digit_of_toNat_eq hval hlt hi, carryOut]
  cases digitCarry limit a b i <;> rfl

/-- No digit of the pattern has its upper bit, so that a pattern is never negative (R185). -/
theorem msb_carryPattern (limit : Nat) (a b : Word) : (carryPattern limit a b).msb = false := by
  have h3 := digit_carryPattern limit a b (i := 3) (by decide)
  have hle : digit (carryPattern limit a b) 3 ≤ 6 := by rw [h3]; split <;> decide
  simp only [digit] at hle
  simp only [BitVec.msb_eq_decide, decide_eq_false_iff_not]
  omega

/-- Settles O49: `digitCarry_binary` for the pattern of the binary addition, and the recursion of
`digitCarry` read off the digits for that of the decimal one. -/
theorem ladPatternDigits : Obligations.LadPatternDigits := by
  intro x y v w hv hw
  obtain rfl : v = carryPattern 16 x y := hv
  obtain rfl : w = carryPattern 10 x y := hw
  refine ⟨fun i hi => ?pattern, msb_carryPattern 16 x y, BitVec.toNat_add x y, ?adjusted, ?lowest,
    fun i hi => ?next⟩
  case pattern =>
    simp only [digit_carryPattern 16 x y hi, digitCarry_binary, decide_eq_true_eq]
  case adjusted =>
    simp only [ladResult, BitVec.toNat_add, Nat.mod_add_mod]
  case lowest =>
    simp only [digit_carryPattern 10 x y (i := 0) (by decide), digitCarry_iff]
    rfl
  case next =>
    have hcarry : (if digit (carryPattern 10 x y) i = 6 then 1 else 0) =
        carryIn 10 x y (i + 1) := by
      rw [digit_carryPattern 10 x y (by omega), carryIn, carryOut]
      cases digitCarry 10 x y i <;> rfl
    rw [hcarry, digit_carryPattern 10 x y (by omega)]
    simp only [digitCarry_iff]
    rfl

/-! ### Decimal addition -/

/-- Every digit of the word is a decimal digit. -/
def IsDecimal (v : Word) : Prop := ∀ i, i < 4 → digit v i ≤ 9

/-- Digit `i` of the decimal sum. -/
def decimalSumDigit (p q : Word) (i : Nat) : Nat :=
  digit p i + digit q i + carryIn 10 p q i - 10 * carryOut 10 p q i

/-- One column of the addition on paper: the digits and the carry in make a digit and a carry out. -/
theorem decimalSumDigit_spec {p q : Word} (hp : IsDecimal p) (hq : IsDecimal q) {i : Nat}
    (hi : i < 4) :
    decimalSumDigit p q i ≤ 9 ∧
      digit p i + digit q i + carryIn 10 p q i =
        decimalSumDigit p q i + 10 * carryOut 10 p q i := by
  have hpi := hp i hi
  have hqi := hq i hi
  have hin : carryIn 10 p q i ≤ 1 := by
    cases i with
    | zero => exact Nat.zero_le 1
    | succ i => exact Bool.toNat_le _
  have hiff := digitCarry_iff 10 p q i
  unfold decimalSumDigit carryOut
  cases h : digitCarry 10 p q i with
  | false =>
    have hlt : digit p i + digit q i + carryIn 10 p q i < 10 := by simpa [h] using hiff
    simp only [Bool.toNat_false]
    omega
  | true =>
    have hge : 10 ≤ digit p i + digit q i + carryIn 10 p q i := hiff.mp h
    simp only [Bool.toNat_true]
    omega

/-- The bias leaves a decimal digit within its digit. -/
theorem digit_biased {p : Word} (hp : IsDecimal p) {i : Nat} (hi : i < 4) :
    digit (p + 0x6666) i = digit p i + 6 := by
  have hsum : (p + 0x6666).toNat = ofDigits 16 fun j => digit p j + 6 := by
    have hlt := p.isLt
    have hval := toNat_eq_ofDigits p
    have h3 := hp 3 (by decide)
    have h2 := hp 2 (by decide)
    have h1 := hp 1 (by decide)
    have h0 := hp 0 (by decide)
    simp only [ofDigits] at hval ⊢
    rw [BitVec.toNat_add]
    change (p.toNat + 26214) % 65536 = _
    omega
  refine digit_of_toNat_eq hsum (fun j hj => ?_) hi
  have := hp j hj
  omega

/-- The bias makes the binary carries of an addition its decimal carries (R185). -/
theorem digitCarry_biased {p : Word} (hp : IsDecimal p) (q : Word) {i : Nat} (hi : i < 4) :
    digitCarry 16 (p + 0x6666) q i = digitCarry 10 p q i := by
  induction i with
  | zero =>
    rw [Bool.eq_iff_iff, digitCarry_iff, digitCarry_iff, digit_biased hp hi, carryIn, carryIn]
    omega
  | succ i ih =>
    rw [Bool.eq_iff_iff, digitCarry_iff, digitCarry_iff, digit_biased hp hi, carryIn, carryIn,
      carryOut, carryOut, ih (by omega)]
    omega

/-- The columns of the addition taken together, at any base: a carry takes 10 from the column it
leaves and puts 1 into the next, which is worth `base` there. -/
theorem ofDigits_decimalSum (base : Nat) {p q : Word} (hp : IsDecimal p) (hq : IsDecimal q) :
    ofDigits base (digit p) + ofDigits base (digit q) + base * ofDigits base (carryOut 10 p q) =
      ofDigits base (decimalSumDigit p q) + 10 * ofDigits base (carryOut 10 p q) +
        base ^ 4 * carryOut 10 p q 3 := by
  obtain ⟨-, h0⟩ := decimalSumDigit_spec hp hq (i := 0) (by decide)
  obtain ⟨-, h1⟩ := decimalSumDigit_spec hp hq (i := 1) (by decide)
  obtain ⟨-, h2⟩ := decimalSumDigit_spec hp hq (i := 2) (by decide)
  obtain ⟨-, h3⟩ := decimalSumDigit_spec hp hq (i := 3) (by decide)
  simp only [carryIn] at h0 h1 h2 h3
  simp only [ofDigits]
  linear_combination h0 + base * h1 + base ^ 2 * h2 + base ^ 3 * h3

/-- The biased sum with the bias taken back where nothing carried is the plain binary sum with 6 added
where a digit carried, and that word has the digits of the decimal sum. -/
theorem toNat_corrected {p q : Word} (hp : IsDecimal p) (hq : IsDecimal q) :
    (p + 0x6666 + q - (0x6666 - carryPattern 16 (p + 0x6666) q)).toNat =
      ofDigits 16 (decimalSumDigit p q) := by
  have hunbias : p + 0x6666 + q - (0x6666 - carryPattern 16 (p + 0x6666) q) =
      p + q + carryPattern 16 (p + 0x6666) q := by
    generalize carryPattern 16 (p + 0x6666) q = k
    ring
  have hcarries : ofDigits 16 (carryOut 16 (p + 0x6666) q) = ofDigits 16 (carryOut 10 p q) :=
    ofDigits_congr fun i hi => congrArg Bool.toNat (digitCarry_biased hp q hi)
  have hsum := ofDigits_decimalSum 16 hp hq
  have hlt : ofDigits 16 (decimalSumDigit p q) < 65536 :=
    ofDigits_lt fun i hi => lt_of_le_of_lt (decimalSumDigit_spec hp hq hi).1 (by decide)
  rw [hunbias, BitVec.toNat_add, BitVec.toNat_add, carryPattern_toNat, hcarries,
    toNat_eq_ofDigits p, toNat_eq_ofDigits q]
  omega

/-- The carry out of the biased word is the decimal carry (R185). -/
theorem carry_biased {p : Word} (hp : IsDecimal p) (q : Word) :
    65536 ≤ (p + 0x6666).toNat + q.toNat ↔ digitCarry 10 p q 3 = true := by
  rw [← digitCarry_biased hp q (by decide), digitCarry_binary, decide_eq_true_eq]
  change _ ↔ 65536 ≤ (p + 0x6666).toNat % 65536 + q.toNat % 65536
  rw [Nat.mod_eq_of_lt (p + 0x6666).isLt, Nat.mod_eq_of_lt q.isLt]

/-- Settles O50: the corrected word has the digits of the decimal sum. -/
theorem decimalAdditionWithLad : Obligations.DecimalAdditionWithLad := by
  rintro p q _ _ r hp hq rfl rfl hr
  have hle (i : Nat) (hi : i < 4) : decimalSumDigit p q i ≤ 9 := (decimalSumDigit_spec hp hq hi).1
  have hdigit (i : Nat) (hi : i < 4) : digit r i = decimalSumDigit p q i :=
    digit_of_toNat_eq (hr ▸ toNat_corrected hp hq)
      (fun j hj => lt_of_le_of_lt (hle j hj) (by decide)) hi
  refine ⟨fun i hi => hdigit i hi ▸ hle i hi, ?_⟩
  have hsum := ofDigits_decimalSum 10 hp hq
  rw [← ofDigits_congr hdigit] at hsum
  have hout : (if 65536 ≤ (p + 0x6666).toNat + q.toNat then 10000 else 0) =
      10000 * carryOut 10 p q 3 := by
    simp only [carry_biased hp q, carryOut]
    cases digitCarry 10 p q 3 <;> rfl
  rw [hout]
  simp only [ofDigits] at hsum
  omega

end Sys2Proof.Machine

namespace Sys2Proof

open Machine

/-! ### The instruction (in the outer namespace: `Machine.ladResult` is the model's function) -/

/-- Settles O48: the adder gives E and V as for A, and the value stored is the one judged. -/
theorem ladResult : Obligations.LadResult := by
  intro rd rs c s
  obtain ⟨x, y, n, hoperands, hread⟩ := readPair_spec rd rs s
  have hexec : exec (.lad rd rs c) s =
      .next (finish c (Machine.ladResult s.cfg.ladFn x y)
        (magnitude s.cfg.lcond (Machine.ladResult s.cfg.ladFn x y) (add x y false).carry
          (add x y false).ovf)
        (underPolicy s.cfg.flagsLad (writeFlags rd (add x y false).carry (add x y false).ovf)
          (writeReg rd (Machine.ladResult s.cfg.ladFn x y) { s with draws := n }))) := by
    simp only [exec, execLad, hread]
  obtain ⟨hwritten, hupdate, hrest⟩ := finish_underPolicy _ rd _ c _ _ _ _ s n _ rfl
  refine ⟨x, y, _, _, hoperands, hexec, rfl, hwritten, fun hrd hpolicy => ?_, hrest⟩
  obtain ⟨hE, hV⟩ := hupdate hrd hpolicy
  rw [hE, hV]
  exact ⟨add_carry x y, add_ovf_word x y⟩

end Sys2Proof
end

section
/-!
SUPPORT. The shift instructions SL and SR (R190 to R192): the 17-bit shift through E, and the writes of
Rn and E that follow EM and the read of Rn.
-/

namespace Sys2Proof.Machine

/-! ### The 17-bit shift -/

theorem toNat_ofBool_getLsbD (x : Word) (i : Nat) :
    (BitVec.ofBool (x.getLsbD i)).toNat = x.toNat / 2 ^ i % 2 := by
  rw [BitVec.toNat_ofBool]
  exact Nat.toNat_testBit x.toNat i

/-- The highest bit leaves, E enters below (R190). -/
theorem append_shiftLeftIn (x : Word) (e : Bool) :
    BitVec.ofBool x.msb ++ shiftLeftIn x e = x ++ BitVec.ofBool e := by
  apply BitVec.eq_of_toNat_eq
  have := x.isLt
  simp only [shiftLeftIn, toNat_append_add, BitVec.msb_eq_getLsbD_last, toNat_ofBool_getLsbD,
    BitVec.extractLsb'_toNat, Nat.shiftRight_eq_div_pow]
  omega

/-- The lowest bit leaves, E enters above (R191). -/
theorem shiftRightIn_append (x : Word) (e : Bool) :
    shiftRightIn x e ++ BitVec.ofBool (x.getLsbD 0) = BitVec.ofBool e ++ x := by
  apply BitVec.eq_of_toNat_eq
  have := x.isLt
  simp only [shiftRightIn, toNat_append_add, toNat_ofBool_getLsbD, BitVec.extractLsb'_toNat,
    Nat.shiftRight_eq_div_pow]
  omega

/-! ### Before the register write -/

/-- EM and the read of Rn change E and the count of drawn values alone. -/
theorem readReg_applyEm_after (rn : Reg) (em : Em) (s : State) :
    ∃ x n, (readReg rn (applyEm em s)).after = { s with str := x, draws := n } := by
  obtain ⟨n, hn⟩ := readReg_after rn (applyEm em s)
  obtain ⟨x, hx⟩ := applyEm_after em s
  exact ⟨x, n, by rw [hn, hx]⟩

theorem readReg_applyEm_frame (rn : Reg) (em : Em) (s : State) :
    Frame [] [0] s (readReg rn (applyEm em s)).after :=
  frame_trans (applyEm_frame em s)
    (frame_mono (readReg_frame rn _) (List.Subset.refl _) (List.nil_subset _))

/-- What was written is the same seen from an earlier state that differs in used bits of STR. -/
theorem writtenAs_of_frame_before {r : Reg} {v : Word} {free bits : List Nat} {s t u : State}
    (g : Frame [] bits s t) (h : WrittenAs r v free t u) (hu : ∀ n ∈ bits, n ∉ unusedBits) :
    WrittenAs r v free s u := by
  obtain ⟨-, hbits, ⟨-, hcfg, -⟩, -⟩ := g
  cases r
  case str =>
    obtain ⟨hused, hunused⟩ := h
    simp only [wordBit, hcfg] at hused hunused
    refine ⟨hused, fun n hn => ?_⟩
    rw [hunused n hn, hbits List.not_mem_nil n (unusedBits_lt hn) fun hb => hu n hb hn]
    rfl
  all_goals exact h

/-! ### The writes of Rn and E -/

theorem writeE_flags_frame (rn : Reg) (e : Bool) (s : State) :
    Frame [] [0, 2] s (writeE rn e s) := by
  unfold writeE
  split
  · exact freeFlags_frame s
  · exact frame_mono (setE_frame e s) (List.Subset.refl _) (by simp)

/-- The end of an instruction without adder outputs moves IC by the condition and leaves E, memory and
I/O as they are. -/
theorem finishFree_skips {w : Nat} (c : Cond) (res : BitVec w) (s : State) :
    (finishFree c res s).flagE = s.flagE ∧ SkipsFreely c res s (finishFree c res s) ∧
      SameMemory s (finishFree c res s) ∧ SameIo s (finishFree c res s) := by
  obtain ⟨mag, n, h⟩ := finishFree_after c res s
  rw [h]
  exact ⟨rfl, ⟨mag, rfl⟩, fun _ => rfl, rfl, rfl⟩

/-- What SL and SR share, for any shifted word `v` and any bit `out` that leaves: after EM and the
read, Rn receives `v` and E receives `out`, `v` is what the condition is judged on, and nothing but Rn,
E and IC changes (R190 to R192, 92 D15). -/
theorem finishFree_writeE (rn : Reg) (em : Em) (c : Cond) (v : Word) (out : Bool) (s t : State)
    (ht : t = finishFree c v (writeE rn out (writeReg rn v (readReg rn (applyEm em s)).after))) :
    WrittenAs rn v [0, 2] s t ∧ (rn ≠ .str → t.flagE = out) ∧ SkipsFreely c v s t ∧
      Frame [rn] [0] s t ∧ SameMemory s t ∧ SameIo s t := by
  have hbefore := readReg_applyEm_frame rn em s
  obtain ⟨x, n, hafter⟩ := readReg_applyEm_after rn em s
  generalize (readReg rn (applyEm em s)).after = u at *
  obtain ⟨r0, r1, r2, r3, r4, sp, str, hreg⟩ := writeReg_rest rn v u
  obtain ⟨y, k, hE⟩ := writeE_after rn out (writeReg rn v u)
  have hrest : (writeE rn out (writeReg rn v u)).ic = s.ic ∧
      (writeE rn out (writeReg rn v u)).mem = s.mem ∧
      SameIo s (writeE rn out (writeReg rn v u)) := by
    rw [hE, hreg, hafter]; exact ⟨rfl, rfl, rfl, rfl⟩
  obtain ⟨hic, hmem, hio⟩ := hrest
  obtain ⟨hflag, ⟨mag, hskip⟩, hkeepMem, hkeepIo⟩ :=
    finishFree_skips c v (writeE rn out (writeReg rn v u))
  subst ht
  refine ⟨?_, fun hrn => hflag.trans (flagE_writeE hrn out _), ⟨mag, ?_⟩, ?_, ?_, ?_⟩
  · have hwritten := writtenAs_of_frame_before hbefore (writeReg_writtenAs rn v u) (by decide)
    have hflags : WrittenAs rn v [0, 2] s (writeE rn out (writeReg rn v u)) :=
      writtenAs_frame hwritten (writeE_flags_frame rn out _) (by simp) (by simp) (by decide)
    exact writtenAs_frame hflags (finishFree_frame c v _) (by simp) (by simp) (by simp)
  · unfold SkipsOn at hskip ⊢
    rw [hskip, hic]
  · have hwrites : Frame [rn] [0] u (writeE rn out (writeReg rn v u)) :=
      frame_trans (frame_mono (writeReg_frame rn v u) (List.Subset.refl _) (by simp))
        (writeE_frame rn out _)
    exact frame_trans (frame_mono hbefore (by simp) (List.Subset.refl _))
      (frame_trans hwrites (frame_mono (finishFree_frame c v _) (by simp) (by simp)))
  · exact fun a => (hkeepMem a).trans (sameMemory_of_eq hmem a)
  · exact ⟨hkeepIo.1.trans hio.1, hkeepIo.2.trans hio.2⟩

/-- Settles O51: each instruction writes its own shifted word to Rn and the bit that leaves to E, both
formed from E and Rn after EM. -/
theorem shiftResult : Obligations.ShiftResult := by
  rintro rn em c s _ rfl
  have hread := readReg_readsAs rn (applyEm em s)
  constructor
  · exact ⟨_, _, _, _, hread, rfl, append_shiftLeftIn _ _, finishFree_writeE rn em c _ _ s _ rfl⟩
  · exact ⟨_, _, _, _, hread, rfl, shiftRightIn_append _ _, finishFree_writeE rn em c _ _ s _ rfl⟩

end Sys2Proof.Machine
end

section
/-!
SUPPORT. The bit and immediate instructions SBIT, RBIT, TBIT, AI, SI and MVI (R200 to R205): the
register read first, then one bit of it, its sum or difference with a small number, or its lower byte
written.
-/

namespace Sys2Proof.Machine

open Sys2Proof.Config

/-- Reading a register changes the count of drawn values alone, and gives a value the register may
read as (R24, R25). -/
theorem readReg_spec (r : Reg) (s : State) :
    ∃ x n, ReadsAs r s x ∧ readReg r s = { value := x, after := { s with draws := n } } := by
  obtain ⟨n, hafter⟩ := readReg_after r s
  exact ⟨_, n, readReg_readsAs r s, by rw [← hafter]⟩

/-! ### One bit of a word (R206) -/

theorem wordBit_or_bitMask (s : State) (x : Word) (i4 : BitVec 4) {k : Nat} (hk : k < 16) :
    wordBit s (x ||| bitMask s.cfg.bitOrder i4) k =
      if k = i4.toNat then true else wordBit s x k := by
  rw [wordBit, BitVec.getLsbD_or, bitMask_bit hk]
  by_cases h : k = i4.toNat <;> simp [h, wordBit]

theorem wordBit_and_not_bitMask (s : State) (x : Word) (i4 : BitVec 4) {k : Nat} (hk : k < 16) :
    wordBit s (x &&& ~~~(bitMask s.cfg.bitOrder i4)) k =
      if k = i4.toNat then false else wordBit s x k := by
  rw [wordBit, BitVec.getLsbD_and, BitVec.getLsbD_not, bitMask_bit hk]
  by_cases h : k = i4.toNat <;> simp [h, wordBit, bitPosition_lt hk]

theorem wordBit_and_bitMask (s : State) (x : Word) (i4 : BitVec 4) {k : Nat} (hk : k < 16) :
    wordBit s (x &&& bitMask s.cfg.bitOrder i4) k =
      if k = i4.toNat then wordBit s x k else false := by
  rw [wordBit, BitVec.getLsbD_and, bitMask_bit hk]
  by_cases h : k = i4.toNat <;> simp [h, wordBit]

/-- Settles O52: SBIT and RBIT write the register with one bit replaced, TBIT ends on the state the
read left. -/
theorem bitResult : Obligations.BitResult := by
  intro rn i4 c s
  obtain ⟨x, n, hreads, hread⟩ := readReg_spec rn s
  refine ⟨?_, ?_, ?_⟩
  · have hexec : exec (.sbit rn i4 c) s =
        .next (finishFree c (x ||| bitMask s.cfg.bitOrder i4)
          (writeReg rn (x ||| bitMask s.cfg.bitOrder i4) { s with draws := n })) := by
      simp only [exec, execSbit, hread]
    exact ⟨x, _, _, hreads, hexec, fun _ => wordBit_or_bitMask s x i4,
      finishFree_writeReg rn _ c _ s n _ rfl⟩
  · have hexec : exec (.rbit rn i4 c) s =
        .next (finishFree c (x &&& ~~~(bitMask s.cfg.bitOrder i4))
          (writeReg rn (x &&& ~~~(bitMask s.cfg.bitOrder i4)) { s with draws := n })) := by
      simp only [exec, execRbit, hread]
    exact ⟨x, _, _, hreads, hexec, fun _ => wordBit_and_not_bitMask s x i4,
      finishFree_writeReg rn _ c _ s n _ rfl⟩
  · have hexec : exec (.tbit rn i4 c) s =
        .next (finishFree c (x &&& bitMask s.cfg.bitOrder i4) { s with draws := n }) := by
      simp only [exec, execTbit, hread]
    obtain ⟨-, hskips, hmem, hio⟩ :=
      finishFree_skips c (x &&& bitMask s.cfg.bitOrder i4) { s with draws := n }
    have hframe := frame_trans (frame_draws [] [] s n)
      (finishFree_frame c (x &&& bitMask s.cfg.bitOrder i4) _)
    exact ⟨x, _, _, hreads, hexec, fun _ => wordBit_and_bitMask s x i4, hskips, hframe, hmem, hio⟩

/-! ### AI and SI -/

theorem toNat_zext4 (i4 : BitVec 4) : (zext4 i4).toNat = i4.toNat := by
  have := i4.isLt
  simp only [zext4, BitVec.truncate_eq_setWidth, BitVec.toNat_setWidth]
  omega

/-- An I4 is a small number, and not a negative one (R63, 92 D19). -/
theorem toInt_zext4 (i4 : BitVec 4) : (zext4 i4).toInt = i4.toNat := by
  have := i4.isLt
  rw [BitVec.toInt_eq_toNat_cond, toNat_zext4]
  omega

/-- Adding a number that is not negative overflows upwards only (R203). -/
theorem add_ovf_zext4 (x : Word) (i4 : BitVec 4) :
    (add x (zext4 i4) false).ovf = true ↔ 32767 < x.toInt + i4.toNat := by
  have := x.le_toInt
  rw [add_ovf_word, toInt_zext4]
  omega

/-- Subtracting a number that is not negative overflows downwards only (R204). -/
theorem sub_ovf_zext4 (x : Word) (i4 : BitVec 4) :
    (sub x (zext4 i4)).ovf = true ↔ x.toInt - i4.toNat < -32768 := by
  have := x.toInt_lt
  rw [sub_ovf_word, toInt_zext4]
  omega

/-- Settles O53: as A and S with the zero-extended I4 for Rs, the flag writes under P_FLAGS_IMM. -/
theorem immediateArithmeticResult : Obligations.ImmediateArithmeticResult := by
  intro rn i4 c s y hy
  obtain rfl : y = zext4 i4 := hy
  obtain ⟨x, n, hreads, hread⟩ := readReg_spec rn s
  constructor
  · have hexec : exec (.ai rn i4 c) s =
        .next (finish c (x + zext4 i4)
          (magnitude s.cfg.lcond (x + zext4 i4) (add x (zext4 i4) false).carry
            (add x (zext4 i4) false).ovf)
          (underPolicy s.cfg.flagsImm
            (writeFlags rn (add x (zext4 i4) false).carry (add x (zext4 i4) false).ovf)
            (writeReg rn (x + zext4 i4) { s with draws := n }))) := by
      simp only [exec, execAi, hread, add_res]
    obtain ⟨hwritten, hupdate, hrest⟩ := finish_underPolicy _ rn _ c _ _ _ _ s n _ rfl
    refine ⟨x, _, hreads, hexec, hwritten, fun hrn hpolicy => ?_, hrest⟩
    obtain ⟨hE, hV⟩ := hupdate hrn hpolicy
    have hcarry := add_carry x (zext4 i4)
    rw [toNat_zext4] at hcarry
    rw [hE, hV]
    exact ⟨hcarry, add_ovf_zext4 x i4⟩
  · have hexec : exec (.si rn i4 c) s =
        .next (finish c (x - zext4 i4)
          (magnitude s.cfg.lcond (x - zext4 i4) (sub x (zext4 i4)).carry (sub x (zext4 i4)).ovf)
          (underPolicy s.cfg.flagsImm
            (writeFlags rn (eOfSub s.cfg.eOnSub (sub x (zext4 i4)).carry) (sub x (zext4 i4)).ovf)
            (writeReg rn (x - zext4 i4) { s with draws := n }))) := by
      simp only [exec, execSi, hread, sub_res]
    obtain ⟨hwritten, hupdate, hrest⟩ := finish_underPolicy _ rn _ c _ _ _ _ s n _ rfl
    refine ⟨x, _, hreads, hexec, hwritten, fun hrn hpolicy => ?_, hrest⟩
    obtain ⟨hE, hV⟩ := hupdate hrn hpolicy
    have hcarry := sub_carry x (zext4 i4)
    rw [toNat_zext4] at hcarry
    rw [hE, hV]
    exact ⟨eOfSub_iff hcarry, sub_ovf_zext4 x i4⟩

/-! ### A register written, and IC moved to the next word -/

/-- What was written is the same seen from a state with the same STR and parameters. -/
theorem writtenAs_of_sameStr {r : Reg} {v : Word} {free : List Nat} {s t u : State}
    (hcfg : t.cfg = s.cfg) (hstr : t.str = s.str) (h : WrittenAs r v free t u) :
    WrittenAs r v free s u := by
  cases r
  case str => simpa only [WrittenAs, wordBit, State.strBit, hcfg, hstr] using h
  all_goals exact h

/-- The end of an instruction that writes a register and never skips, STR included, after reads that
may have moved other registers: from the state `s` before them (R17, R25). -/
theorem advance_writeReg_does {regs : List Reg} {s u : State} (hframe : Frame regs [] s u)
    (hstr : Reg.str ∉ regs) (hic : u.ic = s.ic) (hmem : u.mem = s.mem) (r : Reg) (v : Word)
    (t : State) (ht : t = advance false (writeReg r v u)) :
    WrittenAs r v [] s t ∧ t.ic = s.ic + 1 ∧ Frame (r :: regs) [] s t ∧ SameMemory s t ∧
      SameIo u t := by
  subst ht
  have hadvance := advance_frame false (writeReg r v u)
  have hwritten : WrittenAs r v [] u (advance false (writeReg r v u)) :=
    writtenAs_frame (writeReg_writtenAs r v u) hadvance (List.Subset.refl _) (by simp) (by simp)
  have hwrites : Frame (r :: regs) [] u (advance false (writeReg r v u)) :=
    frame_trans (frame_mono (writeReg_frame r v u) (by simp) (List.Subset.refl _))
      (frame_mono hadvance (List.nil_subset _) (List.Subset.refl _))
  refine ⟨writtenAs_of_sameStr hframe.2.2.1.2.1 (reg_of_frame hframe hstr) hwritten, ?_,
    frame_trans (frame_mono hframe (by simp) (List.Subset.refl _)) hwrites,
    sameMemory_of_eq ((writeReg_mem r v u).trans hmem), writeReg_io r v u⟩
  rw [advance_ic, writeReg_ic, hic]
  rfl

/-! ### MVI -/

theorem zext8_eq_append (b : Byte) : zext8 b = 0#8 ++ b := by
  apply BitVec.eq_of_toNat_eq
  have := b.isLt
  simp only [zext8, BitVec.truncate_eq_setWidth, BitVec.toNat_setWidth, toNat_append_add,
    BitVec.toNat_zero]
  omega

theorem sext8_eq_append (b : Byte) : sext8 b = (if b.msb then 0xFF#8 else 0) ++ b := by
  apply BitVec.eq_of_toNat_eq
  have := b.isLt
  simp only [sext8, BitVec.toNat_signExtend, BitVec.toNat_setWidth, toNat_append_add]
  cases b.msb <;> simp <;> omega

/-- The upper byte MVI leaves in Rn, from the old Rn and I8 (R205, P_MVI_UPPER). -/
def mviUpperByte (p : MviUpper) (old : Word) (i8 : Byte) : Byte :=
  match p with
  | .zero => 0
  | .keep => highByte old
  | .sign => if i8.msb then 0xFF else 0

/-- Under each setting MVI writes that byte above I8; the settings that read no register agree with
every value it may read as. -/
theorem exec_mvi (rn : Reg) (i8 : Byte) (s : State) :
    ∃ x n, ReadsAs rn s x ∧ exec (.mvi rn i8) s =
      .next (advance false
        (writeReg rn (mviUpperByte s.cfg.mviUpper x i8 ++ i8) { s with draws := n })) := by
  obtain ⟨x, n, hreads, hread⟩ := readReg_spec rn s
  cases hupper : s.cfg.mviUpper with
  | zero =>
    refine ⟨x, s.draws, hreads, ?_⟩
    simp only [exec, execMvi, hupper, mviUpperByte, zext8_eq_append]
    rfl
  | keep =>
    refine ⟨x, n, hreads, ?_⟩
    simp only [exec, execMvi, hupper, mviUpperByte, hread]
  | sign =>
    refine ⟨x, s.draws, hreads, ?_⟩
    simp only [exec, execMvi, hupper, mviUpperByte, sext8_eq_append]
    rfl

/-- Settles O54: the two bytes of the word written are I8 and `mviUpperByte`. -/
theorem moveImmediateResult : Obligations.MoveImmediateResult := by
  intro rn i8 s
  obtain ⟨x, n, hreads, hexec⟩ := exec_mvi rn i8 s
  exact ⟨x, _, _, hreads, hexec, lowByte_append _ i8, highByte_append _ i8,
    advance_writeReg_does (frame_draws [] [] s n) List.not_mem_nil rfl rfl rn _ _ rfl⟩

end Sys2Proof.Machine
end

section
/-!
SUPPORT. The I/O and control instructions RD, WT, LPSW, H, PUSH and POP (R215 to R221): what each
leaves of the registers, the memory and the I/O record, and a POP that undoes a PUSH.
-/

namespace Sys2Proof.Machine

open Sys2Proof.Config

/-! ### RD and WT -/

theorem ioRead_value {port : Byte} {s : State} {v : Word} (h : s.ioAnswers.head? = some v) :
    (ioRead port s).value = v := by
  obtain ⟨rest, hanswers⟩ := List.head?_eq_some_iff.mp h
  rw [ioRead_answered hanswers]

/-- Settles O55: RD writes the answer read to its register, WT records the register read. -/
theorem ioResult : Obligations.IoResult := by
  intro rn i8 s
  constructor
  · obtain ⟨n, hafter⟩ := ioRead_after i8 s
    have hexec : exec (.rd rn i8) s =
        .next (advance false (writeReg rn (ioRead i8 s).value (ioRead i8 s).after)) := rfl
    have hframe : Frame [] [] s (ioRead i8 s).after := by
      rw [hafter]; exact frame_rest [] [] s s.mem s.ic _ _ n
    obtain ⟨hwritten, hic, hframe, hmem, hlog, hanswers⟩ := advance_writeReg_does hframe
      List.not_mem_nil (by rw [hafter]) (by rw [hafter]) rn (ioRead i8 s).value _ rfl
    exact ⟨_, _, fun a ha => ioRead_value ha, hexec, hwritten, hlog.trans (by rw [hafter]),
      hanswers.trans (by rw [hafter]), hic, hframe, hmem⟩
  · obtain ⟨x, n, hreads, hread⟩ := readReg_spec rn s
    have hexec : exec (.wt rn i8) s =
        .next (advance false (ioWrite i8 x { s with draws := n })) := by
      simp only [exec, execWt, hread]
    have hframe : Frame [] [] s (advance false (ioWrite i8 x { s with draws := n })) :=
      frame_rest [] [] s s.mem _ _ s.ioAnswers n
    exact ⟨x, _, hreads, hexec, rfl, rfl, rfl, hframe, fun _ => rfl⟩

/-! ### The PSW -/

/-- The first word of a PSW slot, from the STR word and the IC word; with the two exchanged, the
second word (R237, P_PSW_ORDER). -/
def pswFirst (o : PswOrder) (strWord icWord : Word) : Word :=
  if o = .strFirst then strWord else icWord

/-- Which word is which can be told from the slot (R237). -/
theorem pswFirst_inj {o : PswOrder} {x y x' y' : Word} (hfirst : pswFirst o x y = pswFirst o x' y')
    (hsecond : pswFirst o y x = pswFirst o y' x') : x = x' ∧ y = y' := by
  cases o with
  | strFirst => exact ⟨hfirst, hsecond⟩
  | icFirst => exact ⟨hsecond, hfirst⟩

/-- A PSW load reads the two words of the slot, writes one to STR and moves IC to the other. -/
theorem loadPsw_spec (a : Word) (s : State) :
    ∃ x y n, LoadsAs a s (pswFirst s.cfg.pswOrder x y) ∧
      LoadsAs (a + 1) s (pswFirst s.cfg.pswOrder y x) ∧
      loadPsw a s = (writeReg .str x { s with draws := n }).setIc y := by
  obtain ⟨n, hfirst⟩ := memRead_after a s
  obtain ⟨k, hsecond⟩ := memRead_after (a + 1) { s with draws := n }
  have hloads := memRead_loadsAs a s
  have hloads' : LoadsAs (a + 1) s (memRead (a + 1) { s with draws := n }).value :=
    loadsAs_draws.mp (memRead_loadsAs (a + 1) { s with draws := n })
  cases horder : s.cfg.pswOrder with
  | strFirst =>
    refine ⟨_, _, k, hloads, hloads', ?_⟩
    simp only [loadPsw, horder, hfirst, hsecond, writeReg]
  | icFirst =>
    refine ⟨_, _, k, hloads, hloads', ?_⟩
    simp only [loadPsw, horder, hfirst, hsecond, writeReg]

/-- What a PSW load does: STR and IC from the slot, and nothing else changed (R217, R237, R238). -/
theorem loadPsw_does (a : Word) (s : State) :
    ∃ x y, LoadsAs a s (pswFirst s.cfg.pswOrder x y) ∧
      LoadsAs (a + 1) s (pswFirst s.cfg.pswOrder y x) ∧
      WrittenAs .str x [] s (loadPsw a s) ∧ (loadPsw a s).ic = y ∧
      Frame [.str] [] s (loadPsw a s) ∧ SameMemory s (loadPsw a s) ∧ SameIo s (loadPsw a s) := by
  obtain ⟨x, y, n, hloads, hloads', hload⟩ := loadPsw_spec a s
  rw [hload]
  have hsetIc := setIc_frame y (writeReg .str x { s with draws := n })
  have hwritten : WrittenAs .str x [] s ((writeReg .str x { s with draws := n }).setIc y) :=
    writtenAs_frame (writtenAs_draws.mp (writeReg_writtenAs .str x { s with draws := n })) hsetIc
      (List.Subset.refl _) (by simp) (by simp)
  have hframe := frame_trans (frame_trans (frame_draws [.str] [] s n) (writeReg_frame .str x _))
    (frame_mono hsetIc (List.nil_subset _) (List.Subset.refl _))
  exact ⟨x, y, hloads, hloads', hwritten, rfl, hframe,
    sameMemory_of_eq (writeReg_mem .str x { s with draws := n }),
    writeReg_io .str x { s with draws := n }⟩

/-! ### LPSW and H -/

theorem exec_lpsw {i2 : BitVec 2} {l : Level} (h : levelOfI2 i2 = some l) (s : State) :
    exec (.lpsw i2) s = .next (loadPsw (levelAddress s.cfg.opsw l) s) := by
  simp only [exec, execLpsw, h, returnFromInterrupt]

/-- The I2 other than 3 name the levels (R217). -/
theorem levelOfI2_spec {i2 : BitVec 2} (h : i2 ≠ 3) (t : LevelAddresses) :
    ∃ l, levelOfI2 i2 = some l ∧ levelAddress t l =
      if i2 = 0 then t.level0 else if i2 = 1 then t.level1 else t.level2 := by
  have hi2 : i2 = 0 ∨ i2 = 1 ∨ i2 = 2 := by revert i2; decide
  obtain rfl | rfl | rfl := hi2
  · exact ⟨.level0, rfl, rfl⟩
  · exact ⟨.level1, rfl, rfl⟩
  · exact ⟨.level2, rfl, rfl⟩

/-- Settles O56: LPSW is the load of the level's old-PSW slot. -/
theorem lpswResult : Obligations.LpswResult := by
  intro i2 s a hi2 ha
  obtain ⟨l, hlevel, haddress⟩ := levelOfI2_spec hi2 s.cfg.opsw
  have hexec := exec_lpsw hlevel s
  rw [haddress, ← ha] at hexec
  obtain ⟨x, y, hloads, hloads', hrest⟩ := loadPsw_does a s
  exact ⟨x, y, _, hloads, hloads', hexec, hrest⟩

theorem raiseHalt_eq (cause : HaltCause) (s : State) :
    raiseHalt cause s =
      { s with ic := if s.cfg.haltResume = .next then s.ic + 1 else s.ic, run := .halted cause } := by
  unfold raiseHalt
  cases s.cfg.haltResume <;> rfl

/-- Settles O57: both halt, and only the cause they record differs. -/
theorem haltResult : Obligations.HaltResult := by
  rintro s a rfl
  exact ⟨congrArg _ (raiseHalt_eq .hInstruction s),
    congrArg _ (raiseHalt_eq .undefinedInstruction s)⟩

/-! ### PUSH and POP -/

/-- POP moves SP, and then writes the word popped to its register, or a free word to SP (R220, R221). -/
theorem exec_pop (rn : Reg) (s : State) :
    ∃ v w n, LoadsAs (popAddress s) s v ∧ (rn ≠ .sp → w = v) ∧ exec (.pop rn) s =
      .next (advance false (writeReg rn w { s with sp := poppedSp s, draws := n })) := by
  obtain ⟨⟨n, hafter⟩, hloads⟩ := pop_after s
  by_cases hrn : rn = .sp
  · refine ⟨_, freeWord n, n + 1, hloads, fun h => absurd hrn h, ?_⟩
    simp only [exec, execPop, if_pos hrn, hafter]
    rfl
  · refine ⟨_, _, n, hloads, fun _ => rfl, ?_⟩
    simp only [exec, execPop, if_neg hrn, hafter]

/-- Settles O58: the push stores the register read before SP moves; the register a pop writes after
SP has moved is another one than SP, or SP is left free. -/
theorem stackResult : Obligations.StackResult := by
  intro rn s a
  constructor
  · rintro hwf rfl
    obtain ⟨x, n, hreads, hread⟩ := readReg_spec rn s
    have hexec : exec (.push rn) s = .next (advance false (push x { s with draws := n })) := by
      simp only [exec, execPush, hread]
    obtain ⟨hstored, houtside⟩ := push_stores x (s := { s with draws := n }) hwf
    have hframe := frame_trans (frame_trans (frame_draws [.sp] [] s n) (push_frame x _))
      (frame_mono (advance_frame false _) (List.nil_subset _) (List.Subset.refl _))
    exact ⟨x, _, hreads, hexec, hstored, houtside, rfl,
      congrArg (· + 1) (memWrite_ic _ x _), hframe, push_io x { s with draws := n }⟩
  · obtain ⟨v, w, n, hloads, hpopped, hexec⟩ := exec_pop rn s
    have hmoved : Frame [.sp] [] s { s with sp := poppedSp s, draws := n } :=
      frame_trans (writeReg_frame .sp (poppedSp s) s) (frame_draws _ _ _ n)
    obtain ⟨hwritten, hic, hframe, hmem, hio⟩ :=
      advance_writeReg_does hmoved (by simp) rfl rfl rn w _ rfl
    refine ⟨v, _, hloads, hexec, fun hrn => ?_, hic, hframe, hmem, hio⟩
    have hsp := writeReg_reg_ne (Ne.symm hrn) w { s with sp := poppedSp s, draws := n }
    exact ⟨hpopped hrn ▸ hwritten, hsp⟩

/-- A register that receives a value just read from it leaves every register as it was: of STR the
unused bits are dropped, or stored as they were read (R24, R25). -/
theorem reg_writeReg_readsAs {r : Reg} {v : Word} {s : State} (h : ReadsAs r s v) (q : Reg) :
    (writeReg r v s).reg q = s.reg q := by
  by_cases hq : q = r
  · subst hq
    cases q
    case str =>
      obtain ⟨hused, -, hstorage⟩ := h
      refine str_eq_of_strBit (writeReg_cfg .str v s) fun n hn => ?_
      refine (strBit_writeStr v s hn).trans ?_
      by_cases hunused : n ∈ unusedBits
      · by_cases hs : s.cfg.strUnused = .storage
        · simpa [hs] using hstorage hs n hunused
        · simp [hunused, hs]
      · simpa [hunused] using hused n hn hunused
    all_goals exact h
  · exact writeReg_reg_ne hq v s

theorem readsAs_congr {r : Reg} {v : Word} {s t : State} (hcfg : t.cfg = s.cfg)
    (hreg : t.reg r = s.reg r) (h : ReadsAs r s v) : ReadsAs r t v := by
  cases r
  case str =>
    simp only [reg_str] at hreg
    simpa only [ReadsAs, wordBit, State.strBit, hcfg, hreg] using h
  all_goals exact h.trans hreg.symm

/-- Settles O28: the pop finds the word the push stored and moves SP back, and that word is one read
from the register it is written to. -/
theorem pushThenPopRestores : Obligations.PushThenPopRestores := by
  intro rn s hrn hwf hram
  obtain ⟨x, t, hreads, hpush, hstored, -, hsp, -, hframe, -⟩ := (stackResult rn s _).1 hwf rfl
  have hpop : pop t = ⟨x, writeReg .sp s.sp t⟩ := pop_of_pushed hram hframe hsp hstored
  have hexec : exec (.pop rn) t =
      .next (advance false (writeReg rn x (writeReg .sp s.sp t))) := by
    simp only [exec, execPop, if_neg hrn, hpop]
  have hback (q : Reg) : (writeReg .sp s.sp t).reg q = s.reg q := by
    by_cases hq : q = .sp
    · subst hq; rfl
    · calc (writeReg .sp s.sp t).reg q = t.reg q := writeReg_reg_ne hq s.sp t
        _ = s.reg q := reg_of_frame hframe (by simpa using hq)
  have hreads' : ReadsAs rn (writeReg .sp s.sp t) x :=
    readsAs_congr hframe.2.2.1.2.1 (hback rn) hreads
  refine ⟨t, _, hpush, hexec, fun q => ?_⟩
  calc (advance false (writeReg rn x (writeReg .sp s.sp t))).reg q
      = (writeReg rn x (writeReg .sp s.sp t)).reg q :=
        reg_of_frame (advance_frame false _) List.not_mem_nil
    _ = (writeReg .sp s.sp t).reg q := reg_writeReg_readsAs hreads' q
    _ = s.reg q := hback q

end Sys2Proof.Machine
end

section
/-!
SUPPORT. The interrupts (R233 to R240): which level is taken, the entry that stores one PSW and loads
another, and the return that loads the stored one.
-/

namespace Sys2Proof.Machine

open Sys2Proof.Config

/-! ### The level taken -/

theorem levelEnabled_iff (l : Level) (s : State) :
    levelEnabled l s = true ↔ s.strBit (5 + levelNumber l) = s.cfg.irqEnableLevel :=
  beq_iff_eq

/-- Settles O30. -/
theorem enabledLevels : Obligations.EnabledLevels := fun s =>
  ⟨levelEnabled_iff .level0 s, levelEnabled_iff .level1 s, levelEnabled_iff .level2 s, rfl⟩

/-- Every order has all three levels (R239). -/
theorem mem_priorityOrder (p : IrqPriority) (l : Level) : l ∈ priorityOrder p := by
  cases p <;> cases l <;> decide

theorem pendingInterrupt_eq_some_iff (s : State) (l : Level) :
    pendingInterrupt s = some l ↔
      ∃ before later, priorityOrder s.cfg.irqPriority = before ++ l :: later ∧
        s.pins.request l = true ∧ levelEnabled l s = true ∧
        ∀ k ∈ before, ¬ (s.pins.request k = true ∧ levelEnabled k s = true) := by
  rw [pendingInterrupt, List.find?_eq_some_iff_append]
  simp only [Bool.and_eq_true, Bool.not_eq_true', ← Bool.not_eq_true]
  constructor
  · rintro ⟨⟨hreq, hen⟩, before, later, horder, hbefore⟩
    exact ⟨before, later, horder, hreq, hen, hbefore⟩
  · rintro ⟨before, later, horder, hreq, hen, hbefore⟩
    exact ⟨⟨hreq, hen⟩, before, later, horder, hbefore⟩

theorem pendingInterrupt_eq_none_iff (s : State) :
    pendingInterrupt s = none ↔
      ∀ l, ¬ (s.pins.request l = true ∧ levelEnabled l s = true) := by
  simp only [pendingInterrupt, List.find?_eq_none, mem_priorityOrder, true_implies,
    Bool.and_eq_true]

/-- Settles O31: the level taken is the first the search of the order finds, and each order has all
levels. -/
theorem interruptPriority : Obligations.InterruptPriority := by
  refine fun s => ⟨pendingInterrupt_eq_some_iff s, pendingInterrupt_eq_none_iff s, fun l => ?_,
    fun p => ?_⟩
  · cases l <;> rfl
  · cases p <;> rfl

/-! ### The PSW stored in a slot -/

/-- The memory after two words are stored at `a` and the next address. -/
def writeSlot (m : Memory) (a first second : Word) : Memory :=
  writeWord (writeWord m a first) (a + 1) second

section
variable {m : Memory} (hwf : Memory.wf m = true) (a first second : Word)
include hwf

theorem readWord_writeSlot_first : readWord (writeSlot m a first second) a = first := by
  have hne : a ≠ a + 1 := by bv_omega
  rw [writeSlot, readWord_writeWord (writeWord_wf hwf), if_neg hne, readWord_writeWord hwf,
    if_pos rfl]

theorem readWord_writeSlot_second : readWord (writeSlot m a first second) (a + 1) = second := by
  rw [writeSlot, readWord_writeWord (writeWord_wf hwf), if_pos rfl]

theorem readWord_writeSlot_other {b : Word} (hfirst : b ≠ a) (hsecond : b ≠ a + 1) :
    readWord (writeSlot m a first second) b = readWord m b := by
  rw [writeSlot, readWord_writeWord (writeWord_wf hwf), if_neg hsecond, readWord_writeWord hwf,
    if_neg hfirst]

theorem readByte_writeSlot_outside {k : Nat}
    (hk : ∀ b ∈ [a, a + 1], k ≠ wordKey b ∧ k ≠ wordKey b + 1) :
    readByte (writeSlot m a first second) k = readByte m k := by
  obtain ⟨hlow, hhigh⟩ := hk a (by simp)
  obtain ⟨hlow', hhigh'⟩ := hk (a + 1) (by simp)
  rw [writeSlot, readByte_writeWord (writeWord_wf hwf), if_neg hhigh', if_neg hlow',
    readByte_writeWord hwf, if_neg hhigh, if_neg hlow]

end

/-- A PSW store to RAM fills the slot (R237). -/
theorem writePsw_ram {a : Word} {s : State} (hfirst : kindAt s.map a = .ram)
    (hsecond : kindAt s.map (a + 1) = .ram) (strWord icWord : Word) :
    writePsw a strWord icWord s =
      { s with
        mem := writeSlot s.mem a (pswFirst s.cfg.pswOrder strWord icWord)
          (pswFirst s.cfg.pswOrder icWord strWord) } := by
  have hstore (v w : Word) : memWrite (a + 1) w (memWrite a v s) =
      { s with mem := writeSlot s.mem a v w } := by
    rw [memWrite_ram hfirst]
    exact memWrite_ram hsecond
  unfold writePsw
  cases s.cfg.pswOrder with
  | strFirst => exact hstore strWord icWord
  | icFirst => exact hstore icWord strWord

/-! ### Entry and return -/

/-- An interrupt entry fills the level's old slot with STR as read and IC, and is then a load of its
new slot (R238). -/
theorem takeInterrupt_saves {l : Level} {s : State} {a : Word} (hwf : Memory.wf s.mem = true)
    (ha : a = levelAddress s.cfg.opsw l) (hfirst : kindAt s.map a = .ram)
    (hsecond : kindAt s.map (a + 1) = .ram) :
    ∃ x m n, ReadsAs .str s x ∧
      readWord m a = pswFirst s.cfg.pswOrder x s.ic ∧
      readWord m (a + 1) = pswFirst s.cfg.pswOrder s.ic x ∧
      (∀ b, b ≠ a → b ≠ a + 1 → readWord m b = readWord s.mem b) ∧
      SameMemoryOutside [a, a + 1] s { s with mem := m } ∧
      takeInterrupt l s =
        loadPsw (levelAddress s.cfg.npsw l) { s with mem := m, draws := n } := by
  obtain ⟨n, hafter⟩ := readStr_after s
  have hstore := writePsw_ram (s := { s with draws := n }) hfirst hsecond (readStr s).value s.ic
  refine ⟨_, _, n, readStr_readsAs s, readWord_writeSlot_first hwf a _ _,
    readWord_writeSlot_second hwf a _ _, fun _ => readWord_writeSlot_other hwf a _ _,
    fun _ => readByte_writeSlot_outside hwf a _ _, ?_⟩
  rw [takeInterrupt, hafter, ← ha, hstore]

theorem loadPsw_mem (a : Word) (s : State) : (loadPsw a s).mem = s.mem := by
  obtain ⟨x, i, n, h⟩ := loadPsw_after a s
  rw [h]

theorem boundary_interrupt {u : State} {l : Level} (hrst : u.pins.rst = false)
    (hrun : u.run = .running) (hirq : pendingInterrupt u = some l) :
    boundary u = .next (takeInterrupt l u) := by
  simp [boundary, hrst, hrun, hirq]

/-- Settles O32: the store fills the old slot, and the load then reads a new slot that the store left
as it was. -/
theorem interruptEntry : Obligations.InterruptEntry := by
  rintro s u l a b hu hrst hrun hirq hwf ha hb hfirst hsecond hpresent hpresent' hab hab' hba
  have hba' : b + 1 ≠ a + 1 := by bv_omega
  obtain ⟨x, m, n, hreads, hsaved, hsaved', hother, houtside, htake⟩ :=
    takeInterrupt_saves hwf ha hfirst hsecond
  rw [← hb] at htake
  have hstep : step s = .next (loadPsw b { u with mem := m, draws := n }) := by
    rw [← htake, ← boundary_interrupt hrst hrun hirq, hu]; rfl
  obtain ⟨v, w, hloads, hloads', hwritten, hic, hframe, -, hio⟩ :=
    loadPsw_does b { u with mem := m, draws := n }
  have hloaded := (hloads hpresent).trans (hother b hab hab')
  have hloaded' := (hloads' hpresent').trans (hother (b + 1) hba hba')
  have hmem := loadPsw_mem b { u with mem := m, draws := n }
  have hframe' := frame_trans (frame_rest [.str] [] u m u.ic u.ioLog u.ioAnswers n) hframe
  generalize loadPsw b { u with mem := m, draws := n } = t at *
  replace hmem : t.mem = m := hmem
  rw [← hmem] at hsaved hsaved' houtside
  refine ⟨x, t, hreads, hstep, fun horder => ?_, fun horder => ?_, houtside, hframe', hio⟩ <;>
    simp only [horder] at hsaved hsaved' hloaded hloaded'
  · obtain rfl : v = readWord u.mem b := hloaded
    exact ⟨hsaved, hsaved', hwritten, hic.trans hloaded'⟩
  · obtain rfl : v = readWord u.mem (b + 1) := hloaded'
    exact ⟨hsaved, hsaved', hwritten, hic.trans hloaded⟩

/-- Settles O33: the load finds the words of the entry in the old slot, which are IC and STR as it
was read. -/
theorem interruptReturn : Obligations.InterruptReturn := by
  rintro s t u l i2 a hwf hlevel ha hfirst hsecond ht hcfg hmap hword hword'
  obtain ⟨x, m, n, hreads, hsaved, hsaved', -, -, htake⟩ :=
    takeInterrupt_saves hwf ha hfirst hsecond
  obtain ⟨-, -, -, -, -, -, ⟨-, -, ⟨htmap, htcfg, -, -⟩, -⟩, -, -⟩ :=
    loadPsw_does (levelAddress s.cfg.npsw l) { s with mem := m, draws := n }
  have htmem := loadPsw_mem (levelAddress s.cfg.npsw l) { s with mem := m, draws := n }
  rw [← htake, ← ht] at htmap htcfg htmem
  have hucfg : u.cfg = s.cfg := hcfg.trans htcfg
  have humap : u.map = s.map := hmap.trans htmap
  obtain ⟨v, w, hloads, hloads', ⟨hbits, -⟩, hic, -⟩ := loadPsw_does a u
  have hload : pswFirst u.cfg.pswOrder v w = pswFirst u.cfg.pswOrder x s.ic := by
    rw [hloads (by rw [humap, hfirst]; decide), hword, htmem, hucfg]
    exact hsaved
  have hload' : pswFirst u.cfg.pswOrder w v = pswFirst u.cfg.pswOrder s.ic x := by
    rw [hloads' (by rw [humap, hsecond]; decide), hword', htmem, hucfg]
    exact hsaved'
  obtain ⟨rfl, rfl⟩ := pswFirst_inj hload hload'
  have hexec : exec (.lpsw i2) u = .next (loadPsw a u) := by
    rw [exec_lpsw hlevel, hucfg, ha]
  refine ⟨_, hexec, hic, fun k hk hused => ?_⟩
  rw [hbits k hk hused List.not_mem_nil, ← hreads.1 k hk hused, wordBit, wordBit, hucfg]

end Sys2Proof.Machine
end

section
/-!
SUPPORT. Steps that run no instruction, reset and STRT (R232, R260), and two facts about every step:
there is a next state (R230, R273), and the run state ends at H only through H (R231).
-/

namespace Sys2Proof.Machine

open Sys2Proof.Config

/-! ### Starting again and reset -/

theorem leaveHalt_reg (s : State) (r : Reg) : (leaveHalt s).reg r = s.reg r := by
  cases r <;> rfl

/-- Settles O10: beside reading the pins, only the run state changes. -/
theorem strtResumesAtIc : Obligations.StrtResumesAtIc := by
  rintro s u cause rfl hrun hrst hstrt
  obtain ⟨hmem, hio, hic, hreg⟩ := samplePins_keeps s
  have hstep : step s = .next (leaveHalt (samplePins s)) := by
    rw [step_halted hrun hrst, if_pos hstrt]
  exact ⟨_, hstep, rfl, hic, hmem, hio, fun r => (leaveHalt_reg _ r).trans (hreg r)⟩

theorem boundary_reset {u : State} (hrst : u.pins.rst = true) :
    boundary u = .next (applyReset u) := by
  rw [boundary, if_pos hrst]

theorem applyReset_run (s : State) :
    (applyReset s).run =
      if s.cfg.resetStart = .running then .running else .halted .awaitingStart := by
  unfold applyReset
  cases s.cfg.resetStart <;> rfl

/-- Settles O11: RST is looked at before all else. -/
theorem resetMove : Obligations.ResetMove := by
  rintro s u rfl hrst
  have hstep : step s = .next (applyReset (samplePins s)) := boundary_reset hrst
  have hrun := applyReset_run (samplePins s)
  have hcfg := samplePins_cfg s
  rw [hcfg] at hrun
  exact ⟨_, hstep, congrArg Params.resetIc hcfg, congrArg Params.resetStr hcfg, hrun,
    samplePins_mem s, samplePins_sameIo s, rfl, rfl, rfl, rfl⟩

/-- Settles O12: an empty memory is canonical, and a STR of 0 has no unused bit set. -/
theorem resetStateMeetsInvariant : Obligations.ResetStateMeetsInvariant :=
  ⟨rfl, rfl, rfl, rfl, fun _ => ⟨by decide, by decide⟩⟩

/-! ### Every step has a next state -/

/-- No instruction ends in a fault or a refusal (R230, R273). -/
theorem exec_next (i : Instr) (s : State) : ∃ t, exec i s = .next t := by
  cases i with
  | mvi rn i8 =>
    obtain ⟨x, n, -, hexec⟩ := exec_mvi rn i8 s
    exact ⟨_, hexec⟩
  | lpsw i2 =>
    cases hlevel : levelOfI2 i2 with
    | some l => exact ⟨_, exec_lpsw hlevel s⟩
    | none => exact ⟨raiseHalt .undefinedInstruction s, by simp only [exec, execLpsw, hlevel]⟩
  | pop rn =>
    obtain ⟨v, w, n, -, -, hexec⟩ := exec_pop rn s
    exact ⟨_, hexec⟩
  | _ => exact ⟨_, rfl⟩

theorem boundary_next (u : State) : ∃ t, boundary u = .next t := by
  cases hrst : u.pins.rst with
  | true => exact ⟨_, boundary_reset hrst⟩
  | false =>
    cases hrun : u.run with
    | halted cause => exact ⟨_, boundary_halted hrst hrun⟩
    | running =>
      cases hirq : pendingInterrupt u with
      | some l => exact ⟨_, boundary_interrupt hrst hrun hirq⟩
      | none =>
        rw [boundary_running hrst hrun hirq, runInstruction]
        cases decodeWord u.cfg.encoding (fetch u).value with
        | some i => exact exec_next i _
        | none => exact ⟨_, rfl⟩

/-- Settles O14. -/
theorem noStepStops : Obligations.NoStepStops := fun s => boundary_next (samplePins s)

/-! ### The run state -/

theorem Frame.run_eq {regs : List Reg} {bits : List Nat} {s t : State} (h : Frame regs bits s t) :
    t.run = s.run := h.2.2.2

@[simp] theorem readReg_run (r : Reg) (s : State) : (readReg r s).after.run = s.run :=
  (readReg_frame r s).run_eq
@[simp] theorem readPair_run (rd rs : Reg) (s : State) : (readPair rd rs s).after.run = s.run :=
  (readPair_frame rd rs s).run_eq
@[simp] theorem memRead_run (a : Word) (s : State) : (memRead a s).after.run = s.run :=
  (memRead_frame a s).run_eq
@[simp] theorem memWrite_run (a v : Word) (s : State) : (memWrite a v s).run = s.run :=
  (memWrite_frame a v s).run_eq
@[simp] theorem effectiveAddress_run (ea : Ea) (s : State) :
    (effectiveAddress ea s).after.run = s.run :=
  (effectiveAddress_frame ea s).run_eq
@[simp] theorem writeReg_run (r : Reg) (v : Word) (s : State) : (writeReg r v s).run = s.run :=
  (writeReg_frame r v s).run_eq
@[simp] theorem applyEm_run (em : Em) (s : State) : (applyEm em s).run = s.run :=
  (applyEm_frame em s).run_eq
@[simp] theorem writeFlags_run (rd : Reg) (e v : Bool) (s : State) :
    (writeFlags rd e v s).run = s.run :=
  (writeFlags_frame rd e v s).run_eq
@[simp] theorem writeE_run (rn : Reg) (e : Bool) (s : State) : (writeE rn e s).run = s.run :=
  (writeE_frame rn e s).run_eq
@[simp] theorem underPolicy_run (p : FlagPolicy) (rd : Reg) (e v : Bool) (s : State) :
    (underPolicy p (writeFlags rd e v) s).run = s.run :=
  (underPolicy_frame p rd e v s).run_eq
@[simp] theorem finish_run {w : Nat} (c : Cond) (res : BitVec w) (mag : Magnitude) (s : State) :
    (finish c res mag s).run = s.run :=
  (finish_frame c res mag s).run_eq
@[simp] theorem finishFree_run {w : Nat} (c : Cond) (res : BitVec w) (s : State) :
    (finishFree c res s).run = s.run :=
  (finishFree_frame c res s).run_eq
@[simp] theorem push_run (v : Word) (s : State) : (push v s).run = s.run :=
  (push_frame v s).run_eq
@[simp] theorem pop_run (s : State) : (pop s).after.run = s.run :=
  (pop_frame s).run_eq
@[simp] theorem compareValues_run {w : Nat} (x y : BitVec w) (c : Cond) (s : State) :
    (compareValues x y c s).run = s.run := by
  obtain ⟨-, -, -, hframe, -, -⟩ := compareValues_does x y c s s.draws _ rfl
  exact hframe.run_eq
@[simp] theorem countMemory_run (delta : Word) (ea : Ea) (s : State) :
    (countMemory delta ea s).run = s.run := by
  simp [countMemory]
@[simp] theorem combine_run (f : Word → Word → Word) (rd rs : Reg) (c : Cond) (s : State) :
    (combine f rd rs c s).run = s.run := by
  simp [combine]
@[simp] theorem moveThrough_run (f : Word → Word) (rd rs : Reg) (c : Cond) (s : State) :
    (moveThrough f rd rs c s).run = s.run := by
  simp [moveThrough]
@[simp] theorem ioRead_run (port : Byte) (s : State) : (ioRead port s).after.run = s.run := by
  obtain ⟨n, hafter⟩ := ioRead_after port s
  rw [hafter]
@[simp] theorem loadPsw_run (a : Word) (s : State) : (loadPsw a s).run = s.run := by
  obtain ⟨x, i, n, h⟩ := loadPsw_after a s
  rw [h]
@[simp] theorem takeInterrupt_run (l : Level) (s : State) : (takeInterrupt l s).run = s.run := by
  obtain ⟨m, x, i, n, h, -⟩ := takeInterrupt_after l s
  rw [h]
@[simp] theorem fetch_run (s : State) : (fetch s).after.run = s.run := memRead_run s.ic s

/-- An instruction other than H leaves the processor as it ran, but for LPSW 3, which halts it as an
undefined instruction (R231, log entry 15). -/
theorem exec_run {i : Instr} {s t : State} (h : exec i s = .next t) (hi : i ≠ .h) :
    t.run = s.run ∨ t.run = .halted .undefinedInstruction := by
  cases i with
  | h => exact absurd rfl hi
  | lpsw i2 =>
    simp only [exec, execLpsw] at h
    split at h <;> cases h
    · exact .inl (loadPsw_run _ s)
    · exact .inr rfl
  | mvi rn i8 =>
    obtain ⟨x, n, -, hexec⟩ := exec_mvi rn i8 s
    obtain rfl := Host.Outcome.next.inj (hexec.symm.trans h)
    exact .inl (by simp)
  | pop rn =>
    obtain ⟨v, w, n, -, -, hexec⟩ := exec_pop rn s
    obtain rfl := Host.Outcome.next.inj (hexec.symm.trans h)
    exact .inl (by simp)
  | _ =>
    -- a chain of operations, each of which keeps the run state
    cases h
    exact .inl (by simp)

/-- A boundary that leaves the run state of H had it before, or executed H (R231). -/
theorem BoundaryCase.endedAtH {u t : State} (h : BoundaryCase u t) (ht : EndedAtH t) :
    EndedAtH u ∨ decodeWord u.cfg.encoding (fetch u).value = some .h := by
  unfold EndedAtH at *
  cases h with
  | idle => exact .inl ht
  | reset =>
    rw [applyReset_run] at ht
    split at ht <;> cases ht
  | start => cases ht
  | interrupt => exact .inl (by simpa using ht)
  | undefinedWord => cases ht
  | @instruction i _ _ _ _ hdec hexec =>
    by_cases hi : i = .h
    · exact .inr (hi ▸ hdec)
    · obtain hrun | hrun := exec_run hexec hi
      · exact .inl (by rwa [hrun, fetch_run] at ht)
      · rw [hrun] at ht
        cases ht

/-- Settles O22. -/
theorem endedAtHOnlyByH : Obligations.EndedAtHOnlyByH := by
  intro s t hstep hs ht
  have hbefore : ¬ EndedAtH (samplePins s) := by rwa [EndedAtH, samplePins_run]
  have hdec := ((boundaryCase_of_step hstep).endedAtH ht).resolve_left hbefore
  rwa [samplePins_cfg] at hdec

end Sys2Proof.Machine
end
